-- ==== Sys2Proof/Word.lean ====
section
/-! DEFINITION. The word types of viper CORE: each is a bit vector of the width the spec gives (00_scope.md R8). -/

namespace Sys2Proof

/-- A memory byte or the contents of a general register, 8 bits (R8, `XLEN`). -/
abbrev Byte := BitVec 8

/-- The contents of `I`, of `pc`, of a call-stack entry, and an instruction word, 16 bits (R8). -/
abbrev Word := BitVec 16

/-- A register number: the 4-bit field that names any of the sixteen registers (10_state.md R22). -/
abbrev Reg := BitVec 4

/-- A 4-bit field that is not a register number: the height of Dabn, the ignored nibble of 5abN and 9abN (R71). -/
abbrev Nibble := BitVec 4

/-- The 12-bit address operand `nnn` (30_encoding.md R73). -/
abbrev Addr12 := BitVec 12

/-- A pixel column, 0..63 (10_state.md R28). -/
abbrev Col := Fin 64

/-- A pixel row, 0..31 (R28). -/
abbrev Row := Fin 32

/-- The framebuffer: 32 rows of 64 pixels, one bit each (R28). Bit `x` of row `y` is pixel `(x, y)`, so the rows one
after another are R28's row-major bitmap with linear bit index `y * 64 + x`. -/
abbrev Frame := Vector (BitVec 64) 32

/-- The framebuffer with every pixel 0. -/
abbrev clearFrame : Frame := Vector.replicate 32 0#64

/-- The flag register `VF` is general register 0xF (10_state.md R25). -/
abbrev VF : Reg := 0xF#4

end Sys2Proof
end

