-- ==== Sys2Proof/Syntax.lean ====
section
/-! DEFINITION. The instructions of viper CORE: one constructor per row of the opcode table (30_encoding.md R75),
each with exactly the fields of its format (R72). Fields the hardware encodes and does not use (the low nibble of
5abN and 9abN, the second register of 8ab6 and 8abE) are kept, so that no bit of a word is lost; log entry 8. -/

namespace Sys2Proof

/-- The 23 instructions (R75). -/
inductive Instr where
  /-- `00E0` CLS (R170) -/
  | cls
  /-- `00EE` RET (R101) -/
  | ret
  /-- `1nnn` JP nnn (R102) -/
  | jp (nnn : Addr12)
  /-- `2nnn` CALL nnn (R103) -/
  | call (nnn : Addr12)
  /-- `3akk` SE Va, kk (R104) -/
  | seImm (a : Reg) (kk : Byte)
  /-- `4akk` SNE Va, kk (R105) -/
  | sneImm (a : Reg) (kk : Byte)
  /-- `5abN` SE Va, Vb (R106); `N` is ignored (R77) -/
  | seReg (a b : Reg) (n : Nibble)
  /-- `6akk` LD Va, kk (R130) -/
  | ldImm (a : Reg) (kk : Byte)
  /-- `7akk` ADD Va, kk (R131) -/
  | addImm (a : Reg) (kk : Byte)
  /-- `8ab0` LD Va, Vb (R133) -/
  | ldReg (a b : Reg)
  /-- `8ab1` OR Va, Vb (R134) -/
  | orReg (a b : Reg)
  /-- `8ab2` AND Va, Vb (R135) -/
  | andReg (a b : Reg)
  /-- `8ab3` XOR Va, Vb (R136) -/
  | xorReg (a b : Reg)
  /-- `8ab4` ADD Va, Vb (R137) -/
  | addReg (a b : Reg)
  /-- `8ab5` SUB Va, Vb (R138) -/
  | subReg (a b : Reg)
  /-- `8ab6` SHR Va, Vb (R139); `b` is encoded but not read -/
  | shr (a b : Reg)
  /-- `8ab7` SUBN Va, Vb (R140) -/
  | subn (a b : Reg)
  /-- `8abE` SHL Va, Vb (R141); `b` is encoded but not read -/
  | shl (a b : Reg)
  /-- `9abN` SNE Va, Vb (R107); `N` is ignored (R77) -/
  | sneReg (a b : Reg) (n : Nibble)
  /-- `Annn` LD I, nnn (R142) -/
  | ldI (nnn : Addr12)
  /-- `Bnnn` JP V0, nnn (R108) -/
  | jpV0 (nnn : Addr12)
  /-- `Cakk` RND Va, kk (R143) -/
  | rnd (a : Reg) (kk : Byte)
  /-- `Dabn` DRW Va, Vb, n (R171) -/
  | drw (a b : Reg) (n : Nibble)
deriving DecidableEq, Repr

end Sys2Proof
end

