-- ==== Sys2Proof/WellFormed.lean ====
section
/-! DEFINITION. Well-formedness. A term of `Instr` has fields of exactly the encoded widths, so the ranges of
30_encoding.md R80 hold of it by its type (`Instr.wellFormed` says them). A line of assembly has operands that are
plain numbers, and there the ranges and the operand shapes are a check that can fail: `AsmInstr.wellFormed`. -/

namespace Sys2Proof

/-- The operand ranges of R80, field by field: registers and `n` in 0..15, `kk` in 0..255, `nnn` in 0..4095. -/
def Instr.wellFormed : Instr → Bool
  | .cls | .ret => true
  | .jp nnn | .call nnn | .ldI nnn | .jpV0 nnn => decide (nnn.toNat ≤ 4095)
  | .seImm a kk | .sneImm a kk | .ldImm a kk | .addImm a kk | .rnd a kk =>
    decide (a.toNat ≤ 15) && decide (kk.toNat ≤ 255)
  | .ldReg a b | .orReg a b | .andReg a b | .xorReg a b | .addReg a b | .subReg a b | .shr a b | .subn a b
  | .shl a b => decide (a.toNat ≤ 15) && decide (b.toNat ≤ 15)
  | .seReg a b n | .sneReg a b n | .drw a b n =>
    decide (a.toNat ≤ 15) && decide (b.toNat ≤ 15) && decide (n.toNat ≤ 15)

/-- The conventional mnemonics (R80, R75, D11). -/
inductive Mnemonic where
  | cls | ret | jp | call | se | sne | ld | add | or | and | xor | sub | shr | subn | shl | rnd | drw
deriving DecidableEq, Repr

/-- An operand of an assembly line once its labels are resolved: a register by its number, `I`, or a number. -/
inductive AsmOperand where
  | reg (number : Nat)
  | index
  | num (value : Nat)
deriving DecidableEq, Repr

/-- One line `MNEMONIC operand, operand, ...` (R80). -/
structure AsmInstr where
  op : Mnemonic
  args : List AsmOperand
deriving DecidableEq, Repr

/-- A register number is a hex digit (R80). -/
def regOk (r : Nat) : Bool := decide (r ≤ 15)

/-- `kk` must lie in 0..255 (R80). -/
def kkOk (v : Nat) : Bool := decide (v ≤ 255)

/-- `nnn` must lie in 0..4095 (R80). -/
def nnnOk (v : Nat) : Bool := decide (v ≤ 4095)

/-- `n` must lie in 0..15 (R80). -/
def heightOk (v : Nat) : Bool := decide (v ≤ 15)

/-- The line has one of the operand shapes of R75 (or the one-operand SHR and SHL of R80) and every operand lies in
its range. "An operand out of range is an assembly error" (R80). -/
def AsmInstr.wellFormed (l : AsmInstr) : Bool :=
  match l.op, l.args with
  | .cls, [] | .ret, [] => true
  | .jp, [.num v] | .call, [.num v] | .ld, [.index, .num v] => nnnOk v
  | .jp, [.reg r, .num v] => decide (r = 0) && nnnOk v
  | .se, [.reg r, .num v] | .sne, [.reg r, .num v] | .ld, [.reg r, .num v] | .add, [.reg r, .num v]
  | .rnd, [.reg r, .num v] => regOk r && kkOk v
  | .se, [.reg r, .reg q] | .sne, [.reg r, .reg q] | .ld, [.reg r, .reg q] | .or, [.reg r, .reg q]
  | .and, [.reg r, .reg q] | .xor, [.reg r, .reg q] | .add, [.reg r, .reg q] | .sub, [.reg r, .reg q]
  | .shr, [.reg r, .reg q] | .subn, [.reg r, .reg q] | .shl, [.reg r, .reg q] => regOk r && regOk q
  | .shr, [.reg r] | .shl, [.reg r] => regOk r
  | .drw, [.reg r, .reg q, .num v] => regOk r && regOk q && heightOk v
  | _, _ => false

end Sys2Proof
end

