-- ==== Sys2Proof/Decode.lean ====
section
/-! DEFINITION. Decoding by field position (30_encoding.md R71, R75), total on words and on bytes, and the encoder
written from the formats of R72. -/

namespace Sys2Proof

/-! ## Fields (R71) -/

/-- `op`, `word[15:12]`: the instruction family. -/
def opField (w : Word) : BitVec 4 := w.extractLsb' 12 4

/-- `a`, `word[11:8]`: register A (D17). -/
def aField (w : Word) : Reg := w.extractLsb' 8 4

/-- `b`, `word[7:4]`: register B (D17). -/
def bField (w : Word) : Reg := w.extractLsb' 4 4

/-- `n`, `word[3:0]`: the 0x8 selector, the Dabn height, or an ignored nibble. -/
def nField (w : Word) : Nibble := w.extractLsb' 0 4

/-- `kk`, `word[7:0]`. -/
def kkField (w : Word) : Byte := w.extractLsb' 0 8

/-- `nnn`, `word[11:0]`. -/
def nnnField (w : Word) : Addr12 := w.extractLsb' 0 12

/-! ## Decoding (R75, R76) -/

/-- Family 0x0 is decided on the whole word (R75). -/
def decodeSystem (w : Word) : Option Instr :=
  if w = 0x00E0#16 then some .cls
  else if w = 0x00EE#16 then some .ret
  else none

/-- Family 0x8 is decided on the selector `word[3:0]`; selectors 0x8..0xD and 0xF are invalid (R75, R76). -/
def decodeAlu (w : Word) : Option Instr :=
  match (nField w).toNat with
  | 0x0 => some (.ldReg (aField w) (bField w))
  | 0x1 => some (.orReg (aField w) (bField w))
  | 0x2 => some (.andReg (aField w) (bField w))
  | 0x3 => some (.xorReg (aField w) (bField w))
  | 0x4 => some (.addReg (aField w) (bField w))
  | 0x5 => some (.subReg (aField w) (bField w))
  | 0x6 => some (.shr (aField w) (bField w))
  | 0x7 => some (.subn (aField w) (bField w))
  | 0xE => some (.shl (aField w) (bField w))
  | _ => none

/-- The decoder of R75: a total function of the word; `none` is INVALID. In families 0x5 and 0x9 the low nibble
selects nothing (R77, D4). -/
def decode (w : Word) : Option Instr :=
  match (opField w).toNat with
  | 0x0 => decodeSystem w
  | 0x1 => some (.jp (nnnField w))
  | 0x2 => some (.call (nnnField w))
  | 0x3 => some (.seImm (aField w) (kkField w))
  | 0x4 => some (.sneImm (aField w) (kkField w))
  | 0x5 => some (.seReg (aField w) (bField w) (nField w))
  | 0x6 => some (.ldImm (aField w) (kkField w))
  | 0x7 => some (.addImm (aField w) (kkField w))
  | 0x8 => decodeAlu w
  | 0x9 => some (.sneReg (aField w) (bField w) (nField w))
  | 0xA => some (.ldI (nnnField w))
  | 0xB => some (.jpV0 (nnnField w))
  | 0xC => some (.rnd (aField w) (kkField w))
  | 0xD => some (.drw (aField w) (bField w) (nField w))
  | _ => none

/-- A word from its two bytes: big-endian, the byte at the lower address is `word[15:8]` (20_memory.md R54). -/
def wordOfBytes (upper lower : Byte) : Word := upper ++ lower

/-- `word[15:8]`, the byte stored at the lower address (R54). -/
def upperByte (w : Word) : Byte := w.extractLsb' 8 8

/-- `word[7:0]`, the byte stored at the higher address (R54). -/
def lowerByte (w : Word) : Byte := w.extractLsb' 0 8

/-- Why bytes do not decode. -/
inductive DecodeError where
  /-- fewer than the two bytes every instruction has (R70) -/
  | truncated
  /-- the word is one of the invalid words of R76 -/
  | invalidOpcode (word : Word)
deriving DecidableEq, Repr

/-- Decoding at the front of any byte list: the instruction and the bytes after it, or the reason by name. An
instruction is always two bytes (R70). -/
def decodeBytes : List Byte → Except DecodeError (Instr × List Byte)
  | upper :: lower :: rest =>
    match decode (wordOfBytes upper lower) with
    | some i => .ok (i, rest)
    | none => .error (.invalidOpcode (wordOfBytes upper lower))
  | _ => .error .truncated

/-- The instruction read from an opcode-table word. The table's word is the 16-bit instruction word (its bit 15 is
the top bit of `op`), stored with its upper byte first (R54). -/
def decodeTableWord (nbits w : Nat) : Option Instr :=
  let word : Word := BitVec.ofNat 16 (w % 2 ^ nbits)
  match decodeBytes [upperByte word, lowerByte word] with
  | .ok (i, _) => some i
  | .error _ => none

/-! ## Encoding (R72, R75) -/

/-- Format `NNN`. -/
def encodeNNN (op : BitVec 4) (nnn : Addr12) : Word := op ++ nnn

/-- Format `AKK`. -/
def encodeAKK (op : BitVec 4) (a : Reg) (kk : Byte) : Word := op ++ a ++ kk

/-- Format `ABN`. -/
def encodeABN (op : BitVec 4) (a b : Reg) (n : Nibble) : Word := op ++ a ++ b ++ n

/-- The word of an instruction. -/
def encodeWord : Instr → Word
  | .cls => 0x00E0#16
  | .ret => 0x00EE#16
  | .jp nnn => encodeNNN 0x1#4 nnn
  | .call nnn => encodeNNN 0x2#4 nnn
  | .seImm a kk => encodeAKK 0x3#4 a kk
  | .sneImm a kk => encodeAKK 0x4#4 a kk
  | .seReg a b n => encodeABN 0x5#4 a b n
  | .ldImm a kk => encodeAKK 0x6#4 a kk
  | .addImm a kk => encodeAKK 0x7#4 a kk
  | .ldReg a b => encodeABN 0x8#4 a b 0x0#4
  | .orReg a b => encodeABN 0x8#4 a b 0x1#4
  | .andReg a b => encodeABN 0x8#4 a b 0x2#4
  | .xorReg a b => encodeABN 0x8#4 a b 0x3#4
  | .addReg a b => encodeABN 0x8#4 a b 0x4#4
  | .subReg a b => encodeABN 0x8#4 a b 0x5#4
  | .shr a b => encodeABN 0x8#4 a b 0x6#4
  | .subn a b => encodeABN 0x8#4 a b 0x7#4
  | .shl a b => encodeABN 0x8#4 a b 0xE#4
  | .sneReg a b n => encodeABN 0x9#4 a b n
  | .ldI nnn => encodeNNN 0xA#4 nnn
  | .jpV0 nnn => encodeNNN 0xB#4 nnn
  | .rnd a kk => encodeAKK 0xC#4 a kk
  | .drw a b n => encodeABN 0xD#4 a b n

/-- The bytes of an instruction, as memory holds them (R54, R70). -/
def encode (i : Instr) : List Byte := [upperByte (encodeWord i), lowerByte (encodeWord i)]

/-! ## The opcode table (R75, opcode_table.json) -/

/-- A row of the opcode table: a word is one of the row's when its bits under `mask` are `value`. -/
structure OpRow where
  value : Word
  mask : Word
deriving DecidableEq, Repr

/-- The word is one of the row's. -/
def OpRow.covers (r : OpRow) (w : Word) : Bool := decide (w &&& r.mask = r.value)

/-- The row an instruction stands in. -/
def Instr.row : Instr → OpRow
  | .cls => ⟨0x00E0#16, 0xFFFF#16⟩
  | .ret => ⟨0x00EE#16, 0xFFFF#16⟩
  | .jp _ => ⟨0x1000#16, 0xF000#16⟩
  | .call _ => ⟨0x2000#16, 0xF000#16⟩
  | .seImm _ _ => ⟨0x3000#16, 0xF000#16⟩
  | .sneImm _ _ => ⟨0x4000#16, 0xF000#16⟩
  | .seReg _ _ _ => ⟨0x5000#16, 0xF000#16⟩
  | .ldImm _ _ => ⟨0x6000#16, 0xF000#16⟩
  | .addImm _ _ => ⟨0x7000#16, 0xF000#16⟩
  | .ldReg _ _ => ⟨0x8000#16, 0xF00F#16⟩
  | .orReg _ _ => ⟨0x8001#16, 0xF00F#16⟩
  | .andReg _ _ => ⟨0x8002#16, 0xF00F#16⟩
  | .xorReg _ _ => ⟨0x8003#16, 0xF00F#16⟩
  | .addReg _ _ => ⟨0x8004#16, 0xF00F#16⟩
  | .subReg _ _ => ⟨0x8005#16, 0xF00F#16⟩
  | .shr _ _ => ⟨0x8006#16, 0xF00F#16⟩
  | .subn _ _ => ⟨0x8007#16, 0xF00F#16⟩
  | .shl _ _ => ⟨0x800E#16, 0xF00F#16⟩
  | .sneReg _ _ _ => ⟨0x9000#16, 0xF000#16⟩
  | .ldI _ => ⟨0xA000#16, 0xF000#16⟩
  | .jpV0 _ => ⟨0xB000#16, 0xF000#16⟩
  | .rnd _ _ => ⟨0xC000#16, 0xF000#16⟩
  | .drw _ _ _ => ⟨0xD000#16, 0xF000#16⟩

/-- The 23 rows, in the table's order. -/
def opcodeTable : List OpRow :=
  [⟨0x00E0#16, 0xFFFF#16⟩, ⟨0x00EE#16, 0xFFFF#16⟩, ⟨0x1000#16, 0xF000#16⟩, ⟨0x2000#16, 0xF000#16⟩,
   ⟨0x3000#16, 0xF000#16⟩, ⟨0x4000#16, 0xF000#16⟩, ⟨0x5000#16, 0xF000#16⟩, ⟨0x6000#16, 0xF000#16⟩] ++
  [⟨0x7000#16, 0xF000#16⟩, ⟨0x8000#16, 0xF00F#16⟩, ⟨0x8001#16, 0xF00F#16⟩, ⟨0x8002#16, 0xF00F#16⟩,
   ⟨0x8003#16, 0xF00F#16⟩, ⟨0x8004#16, 0xF00F#16⟩, ⟨0x8005#16, 0xF00F#16⟩, ⟨0x8006#16, 0xF00F#16⟩] ++
  [⟨0x8007#16, 0xF00F#16⟩, ⟨0x800E#16, 0xF00F#16⟩, ⟨0x9000#16, 0xF000#16⟩, ⟨0xA000#16, 0xF000#16⟩,
   ⟨0xB000#16, 0xF000#16⟩, ⟨0xC000#16, 0xF000#16⟩, ⟨0xD000#16, 0xF000#16⟩]

end Sys2Proof
end

