-- ==== Sys2Proof/Config.lean ====
section
/-! DEFINITION. What is fixed for one machine: the sizes of 00_scope.md R8, the one parameter STACK_LIMIT, and the
free value of the random-byte input. -/

namespace Sys2Proof

/-- `MEMSIZE`: memory has the addresses 0 to 4095 (R8). -/
@[simp] abbrev memSize : Nat := 4096

/-- `LOADADDR`: where execution begins (R8, R15). -/
abbrev loadAddr : Word := 0x200#16

/-- `FB_W` (R8, R177). -/
@[simp] abbrev fbWidth : Nat := 64

/-- `FB_H` (R8, R177). -/
@[simp] abbrev fbHeight : Nat := 32

/-- The machine's one parameter (R9). -/
structure Config where
  /-- `STACK_LIMIT`: `none` is the unbounded stack of the source, `some n` a stack of `n` entries (R8, D6). -/
  stackLimit : Option Nat
deriving DecidableEq, Repr

/-- The spec's default: an unbounded call stack (R8, D6). Log entry 2. -/
def Config.default : Config := ⟨none⟩

/-- FREE VALUE (41_alu.md R143, D13, U6): the byte the entropy source gives at the `n`-th request when the host has
queued none. It has no body: nothing can be proved of the value. Log entry 3. -/
opaque Config.freeRandByte : Nat → Byte

end Sys2Proof
end

