-- ==== Sys2Proof/Machine/State.lean ====
section
/-! DEFINITION. The machine's state as 10_state.md R20 lists it, the faults of 60_exceptions.md R200, and reset. -/

namespace Sys2Proof.Machine

/-! ## Memory -/

/-- The contents of memory, as the list of the bytes that differ from `Memory.background`, by rising address. -/
abbrev Memory := List Host.Cell

/-- What an address that is not listed reads as: reset makes every byte 0 (R40, R50). -/
abbrev Memory.background : Byte := 0x00#8

/-- The canonical form: addresses strictly rising, every one of them an address of memory (R50), and no entry equal
to what an unlisted address reads as. -/
abbrev Memory.wf (m : Memory) : Prop :=
  m.Pairwise (fun c d => c.1 < d.1) ∧ ∀ c ∈ m, c.1 < memSize ∧ c.2 ≠ Memory.background

/-! ## Faults and refusals -/

/-- The fault kinds of R200 with the info each records. A meaning takes a fault by latching it in the state (R201);
`step` answers with it, unchanged, while it stays latched (R202). Safe: a faulted core runs nothing further. -/
inductive Fault where
  /-- code 1: the fetched word is no instruction. Raised by `step` after the fetch (R76). Safe. -/
  | invalidOpcode (pc0 : Word) (word : Word)
  /-- code 2: 00EE with an empty call stack. Raised by RET (R101). Safe. -/
  | stackUnderflow (pc0 : Word)
  /-- code 3: a byte address of 4096 or more. Raised by the fetch and by DRW (R53, R171, D2). Safe. -/
  | outOfRange (pc0 : Word) (addr : Nat)
  /-- code 4: 2nnn with STACK_LIMIT entries on the stack. Raised by CALL under a finite limit only (R103, D6). Safe. -/
  | stackOverflow (pc0 : Word)
deriving DecidableEq, Repr

/-- Why the model gives no meaning. -/
inductive Refusal where
  /-- An arm of `exec` that has no meaning yet. No arm raises it: every instruction of the table has its meaning.
  Safe. -/
  | notModelled (mnemonic : String)
deriving DecidableEq, Repr

/-! ## State -/

/-- The random-byte port seen from the core (60_exceptions.md R210): THE MODEL'S OWN, not the spec's state.
Log entry 3. -/
structure RandPort where
  /-- bytes the host has supplied on `rand_in` and the core has not consumed, oldest first -/
  pending : List Byte
  /-- how many requests (`rand_req`) the core has made -/
  count : Nat
deriving DecidableEq, Repr

/-- THE COMPLETE STATE OF THE CORE: exactly the rows of the table of R20, and nothing else. -/
structure CoreState where
  /-- `mem` (20_memory.md R50) -/
  mem : Memory
  /-- `x[0x0]` .. `x[0xF]` (R21) -/
  x : Vector Byte 16
  /-- `I` (R23) -/
  i : Word
  /-- `pc` (R24) -/
  pc : Word
  /-- the call stack, its TOP FIRST (R26; log entry 5) -/
  stack : List Word
  /-- `DT` (R27) -/
  dt : Byte
  /-- `ST` (R27) -/
  st : Byte
  /-- `FB` (R28) -/
  fb : Frame
  /-- the fault latch (R30) -/
  fault : Option Fault
deriving DecidableEq, Repr

/-- What one step is a function of: the core's state (R20), and beside it what R20 says is not state, the parameter
and the random bytes of the host. They stand here because the host's `step` takes nothing else. -/
structure State extends CoreState where
  /-- the parameter STACK_LIMIT: not state (R20); no step and no transaction changes it. Log entry 2. -/
  config : Config
  /-- the random bytes the host supplies: not state (R20). Log entry 3. -/
  rand : RandPort
deriving DecidableEq, Repr

/-- Every field of the core at its value in 10_state.md R40. -/
def CoreState.reset : CoreState where
  mem := []
  x := Vector.replicate 16 0x00#8
  i := 0x0000#16
  pc := loadAddr
  stack := []
  dt := 0x00#8
  st := 0x00#8
  fb := clearFrame
  fault := none

/-- Right after reset: the core as R40 says, the parameter and the random bytes as log entries 2 and 3 say. -/
def State.reset : State where
  toCoreState := CoreState.reset
  config := Config.default
  rand := ⟨[], 0⟩

end Sys2Proof.Machine
end

