-- ==== Sys2Proof/Machine/Flags.lean ====
section
/-! DEFINITION. Every flag computation: the carry, the no-borrow and the shifted-out bit of 41_alu.md R144, and the
byte a flag is written to `x[0xF]` as. The collision flag is computed by the draw (Display.lean). -/

namespace Sys2Proof.Machine

/-- A flag as the byte written to `VF`: 1 or 0 (R144). -/
def flagByte (f : Bool) : Byte := if f then 0x01#8 else 0x00#8

/-- `zext_9(A) + zext_9(B)`, the 9-bit sum of 8ab4 (R137). -/
def sum9 (a b : Byte) : BitVec 9 := a.setWidth 9 + b.setWidth 9

/-- `s[7:0]` (R137). -/
def sumByte (a b : Byte) : Byte := (sum9 a b).extractLsb' 0 8

/-- `s[8]`, "1 if unsigned overflow else 0" (R137). -/
def carryOut (a b : Byte) : Bool := (sum9 a b).getLsbD 8

/-- No-borrow of `p - q`: "1 if A ≥ B before subtraction" (R138), and the mirror for 8ab7 (R140). -/
def noBorrow (p q : Byte) : Bool := decide (q.toNat ≤ p.toNat)

/-- "previous low bit of A" (R139). -/
def lowBit (a : Byte) : Bool := a.getLsbD 0

/-- "previous high bit of A" (R141). -/
def highBit (a : Byte) : Bool := a.getLsbD 7

end Sys2Proof.Machine
end

