-- ==== Sys2Proof/Machine/Operands.lean ====
section
/-! DEFINITION. Operand assembly (30_encoding.md R73): no operand is signed, scaled or shifted. -/

namespace Sys2Proof.Machine

/-- `zext_16(nnn)`: a 12-bit operand as a 16-bit address (R73). -/
def addr16 (nnn : Addr12) : Word := nnn.setWidth 16

/-- `zext_16` of an 8-bit register value, for Bnnn's sum (R108). -/
def word16 (v : Byte) : Word := v.setWidth 16

/-- `n` as the row count of Dabn (R73). -/
def rowCount (n : Nibble) : Nat := n.toNat

end Sys2Proof.Machine
end

