-- ==== Sys2Proof/Machine/Ops.lean ====
section
/-! DEFINITION. The named operations every meaning is built from: memory, registers, the program counter, the call
stack, the framebuffer's pixels, the random-byte port, taking a fault, and reset. -/

namespace Sys2Proof.Machine

/-! ## Memory (20_memory.md) -/

/-- The byte at an address. -/
def Memory.read : Memory → Nat → Byte
  | [], _ => Memory.background
  | c :: m, addr => if c.1 = addr then c.2 else Memory.read m addr

/-- Write a byte, keeping the canonical form. Only the host load writes memory (R52). -/
def Memory.write : Memory → Nat → Byte → Memory
  | [], addr, v => if v = Memory.background then [] else [(addr, v)]
  | c :: m, addr, v =>
    if c.1 < addr then c :: Memory.write m addr v
    else if c.1 = addr then (if v = Memory.background then m else (addr, v) :: m)
    else if v = Memory.background then c :: m
    else (addr, v) :: c :: m

/-- Copy a run of bytes to `org`, `org + 1`, ... (R62). -/
def Memory.writeRun : Memory → Nat → List Byte → Memory
  | m, _, [] => m
  | m, org, v :: vs => Memory.writeRun (Memory.write m org v) (org + 1) vs

/-- The byte at a memory address, with no check and no effect (R63). -/
def State.byteAt (s : State) (addr : Nat) : Byte := s.mem.read addr

/-- `MemRead(addr, 1)` (R12, R53): the byte, or `OutOfRange(pc0, addr)` at 4096 and above. `addr` is a natural number,
so nothing wraps. -/
def State.memRead (s : State) (addr : Nat) : Except Fault Byte :=
  if addr < memSize then .ok (s.byteAt addr) else .error (.outOfRange s.pc addr)

/-! ## Registers (10_state.md) -/

/-- Read general register `r` (R12). -/
def State.reg (s : State) (r : Reg) : Byte := s.x[r.toNat]'(r.isLt)

/-- Write general register `r` (R12). No register is hard-wired (R21). -/
def State.setReg (s : State) (r : Reg) (v : Byte) : State := { s with x := s.x.set r.toNat v r.isLt }

/-- Write the result to `x[a]`, then the flag to `x[0xF]`: with `a = 0xF` the flag stays (R132, D3). -/
def State.setResultFlag (s : State) (a : Reg) (v : Byte) (f : Bool) : State :=
  (s.setReg a v).setReg VF (flagByte f)

/-- Write the index register (R23). -/
def State.setI (s : State) (v : Word) : State := { s with i := v }

/-! ## Program counter (R24) -/

/-- Write `pc`. -/
def State.setPc (s : State) (target : Word) : State := { s with pc := target }

/-- The fetch advance: "Advance PC by 2 immediately", modulo 2^16 (R74, R24, D7). -/
def State.advance (s : State) : State := s.setPc (s.pc + 2#16)

/-- A skip, applied on top of the fetch advance (R12). -/
def State.skip (s : State) : State := s.setPc (s.pc + 2#16)

/-- Skip when the condition holds. -/
def State.skipIf (s : State) (c : Bool) : State := if c then s.skip else s

/-! ## Call stack (R26) -/

/-- `push(v)` (R12). -/
def State.push (s : State) (v : Word) : State := { s with stack := v :: s.stack }

/-- The stack after a `pop()`: what is left of it (R12, R101). -/
def State.setStack (s : State) (rest : List Word) : State := { s with stack := rest }

/-- "STACK_LIMIT is finite and length(stack) == STACK_LIMIT" (R103, D6). -/
def State.stackFull (s : State) : Bool :=
  match s.config.stackLimit with
  | none => false
  | some limit => decide (s.stack.length = limit)

/-! ## Framebuffer (R28) -/

/-- `FB[py][px]`: whether the pixel is lit. -/
def pixelAt (fb : Frame) (px : Col) (py : Row) : Bool := fb[py].getLsbD px.val

/-- `FB[py][px] <- FB[py][px] XOR 1`. -/
def flipPixel (fb : Frame) (px : Col) (py : Row) : Frame :=
  fb.set py.val (fb[py] ^^^ BitVec.twoPow 64 px.val) py.isLt

/-- Replace the framebuffer: only CLS and DRW do (R28). -/
def State.setFb (s : State) (fb : Frame) : State := { s with fb := fb }

/-- The pixel of a state. -/
def State.pixel (s : State) (px : Col) (py : Row) : Bool := pixelAt s.fb px py

/-! ## The random-byte port (41_alu.md R143, 60_exceptions.md R210) -/

/-- `RandIn()`: the oldest byte the host has supplied, or the free value of this request when there is none (D13).
Log entry 3. -/
def State.randIn (s : State) : Byte :=
  match s.rand.pending with
  | v :: _ => v
  | [] => Config.freeRandByte s.rand.count

/-- One request consumes one fresh byte and counts (R143: "must be re-queried per instruction (not memoized)"). -/
def State.consumeRand (s : State) : State := { s with rand := ⟨s.rand.pending.tail, s.rand.count + 1⟩ }

/-! ## Faults and reset (60_exceptions.md R201, R202) -/

/-- TAKING A FAULT (R201, R13, D1): the state exactly as before the step, with only the latch set. `s` is the state
before the step, whose `pc` is `pc0`. There is no handler and no saved state; control goes nowhere. -/
def State.raise (s : State) (f : Fault) : State := { s with fault := some f }

/-- THE ONLY WAY OUT OF A FAULT (R202, R230, D18): the reset transaction, which repeats creation. The parameter and
the random port are not state of the core and stay (log entry 4). -/
def State.rst (s : State) : State := { s with toCoreState := CoreState.reset }

/-! ## Fetch (30_encoding.md R74) -/

/-- The fetch: `mem[pc0]`, then `mem[pc0+1]`, each checked (R53), as one big-endian word (R54). -/
def State.fetch (s : State) : Except Fault Word :=
  match s.memRead s.pc.toNat with
  | .error f => .error f
  | .ok hi =>
    match s.memRead (s.pc.toNat + 1) with
    | .error f => .error f
    | .ok lo => .ok (wordOfBytes hi lo)

/-- Where a word can be placed so that the next fetch reads it: `pc`, or the load address when `pc` has no two bytes
of memory. -/
def State.fetchAddr (s : State) : Word := if s.pc.toNat + 1 < memSize then s.pc else loadAddr

/-- The state with a word placed where the next step fetches, able to run it: the latch cleared. Log entry 6. -/
def State.placeWord (s : State) (w : Word) : State :=
  { s with
    pc := s.fetchAddr
    mem := s.mem.writeRun s.fetchAddr.toNat [upperByte w, lowerByte w]
    fault := none }

end Sys2Proof.Machine
end

