-- ==== Sys2Proof/Machine/Alu.lean ====
section
/-! DEFINITION. 41_alu.md: loads, the 0x8 family, the index load and the random byte. Operands are the "register
values before the op" (R132), and the 8-bit arithmetic wraps (R144). -/

namespace Sys2Proof.Machine

/-- R130 LD Va, kk. -/
def execLdImm (a : Reg) (kk : Byte) (s : State) : Host.Outcome State Fault Refusal :=
  .next (s.advance.setReg a kk)

/-- R131 ADD Va, kk: no flag (90_conflicts.md C2). -/
def execAddImm (a : Reg) (kk : Byte) (s : State) : Host.Outcome State Fault Refusal :=
  .next (s.advance.setReg a (s.reg a + kk))

/-- R133 LD Va, Vb. -/
def execLdReg (a b : Reg) (s : State) : Host.Outcome State Fault Refusal :=
  .next (s.advance.setReg a (s.reg b))

/-- R134 OR Va, Vb: the flag is unchanged. -/
def execOrReg (a b : Reg) (s : State) : Host.Outcome State Fault Refusal :=
  .next (s.advance.setReg a (s.reg a ||| s.reg b))

/-- R135 AND Va, Vb: the flag is unchanged. -/
def execAndReg (a b : Reg) (s : State) : Host.Outcome State Fault Refusal :=
  .next (s.advance.setReg a (s.reg a &&& s.reg b))

/-- R136 XOR Va, Vb: the flag is unchanged. -/
def execXorReg (a b : Reg) (s : State) : Host.Outcome State Fault Refusal :=
  .next (s.advance.setReg a (s.reg a ^^^ s.reg b))

/-- R137 ADD Va, Vb: VF is the carry. -/
def execAddReg (a b : Reg) (s : State) : Host.Outcome State Fault Refusal :=
  .next (s.advance.setResultFlag a (sumByte (s.reg a) (s.reg b)) (carryOut (s.reg a) (s.reg b)))

/-- R138 SUB Va, Vb: VF is the no-borrow of A - B (90_conflicts.md C1). -/
def execSubReg (a b : Reg) (s : State) : Host.Outcome State Fault Refusal :=
  .next (s.advance.setResultFlag a (s.reg a - s.reg b) (noBorrow (s.reg a) (s.reg b)))

/-- R139 SHR Va, Vb: shifts `x[a]`; `b` is not read. -/
def execShr (a _b : Reg) (s : State) : Host.Outcome State Fault Refusal :=
  .next (s.advance.setResultFlag a (s.reg a >>> 1) (lowBit (s.reg a)))

/-- R140 SUBN Va, Vb: VF is the no-borrow of B - A. -/
def execSubn (a b : Reg) (s : State) : Host.Outcome State Fault Refusal :=
  .next (s.advance.setResultFlag a (s.reg b - s.reg a) (noBorrow (s.reg b) (s.reg a)))

/-- R141 SHL Va, Vb: shifts `x[a]`; `b` is not read. -/
def execShl (a _b : Reg) (s : State) : Host.Outcome State Fault Refusal :=
  .next (s.advance.setResultFlag a (s.reg a <<< 1) (highBit (s.reg a)))

/-- R142 LD I, nnn. -/
def execLdI (nnn : Addr12) (s : State) : Host.Outcome State Fault Refusal :=
  .next (s.advance.setI (addr16 nnn))

/-- R143 RND Va, kk: one fresh byte, masked. -/
def execRnd (a : Reg) (kk : Byte) (s : State) : Host.Outcome State Fault Refusal :=
  .next (s.advance.consumeRand.setReg a (s.randIn &&& kk))

end Sys2Proof.Machine
end

