-- ==== Sys2Proof/Machine/ControlFlow.lean ====
section
/-! DEFINITION. 40_control_flow.md: return, jump, call, skips, register jump. Each meaning takes the state before the
step (`pc` is `pc0`) and makes the fetch advance of R74 itself. -/

namespace Sys2Proof.Machine

/-- R101 RET: pop into `pc`; `StackUnderflow(pc0)` when the stack is empty. -/
def execRet (s : State) : Host.Outcome State Fault Refusal :=
  match s.stack with
  | [] => .next (s.raise (.stackUnderflow s.pc))
  | top :: rest => .next ((s.setStack rest).setPc top)

/-- R102 JP nnn. -/
def execJp (nnn : Addr12) (s : State) : Host.Outcome State Fault Refusal :=
  .next (s.advance.setPc (addr16 nnn))

/-- R103 CALL nnn: push the advanced `pc`, then jump; `StackOverflow(pc0)` at a finite limit. -/
def execCall (nnn : Addr12) (s : State) : Host.Outcome State Fault Refusal :=
  .next (if s.stackFull then s.raise (.stackOverflow s.pc)
    else (s.advance.push s.advance.pc).setPc (addr16 nnn))

/-- R104 SE Va, kk. -/
def execSeImm (a : Reg) (kk : Byte) (s : State) : Host.Outcome State Fault Refusal :=
  .next (s.advance.skipIf (s.reg a == kk))

/-- R105 SNE Va, kk. -/
def execSneImm (a : Reg) (kk : Byte) (s : State) : Host.Outcome State Fault Refusal :=
  .next (s.advance.skipIf (s.reg a != kk))

/-- R106 SE Va, Vb; `N` is ignored (R77, D4). -/
def execSeReg (a b : Reg) (_n : Nibble) (s : State) : Host.Outcome State Fault Refusal :=
  .next (s.advance.skipIf (s.reg a == s.reg b))

/-- R107 SNE Va, Vb; `N` is ignored (R77, D4). -/
def execSneReg (a b : Reg) (_n : Nibble) (s : State) : Host.Outcome State Fault Refusal :=
  .next (s.advance.skipIf (s.reg a != s.reg b))

/-- R108 JP V0, nnn: always `x[0x0]`; the sum is not masked to 12 bits (D7). -/
def execJpV0 (nnn : Addr12) (s : State) : Host.Outcome State Fault Refusal :=
  .next (s.advance.setPc (word16 (s.reg 0x0#4) + addr16 nnn))

end Sys2Proof.Machine
end

