-- ==== Sys2Proof/Machine/Display.lean ====
section
/-! DEFINITION. 42_display.md: the clear, and the XOR sprite draw with its collision unit. -/

namespace Sys2Proof.Machine

/-- R170 CLS. -/
def execCls (s : State) : Host.Outcome State Fault Refusal :=
  .next (s.advance.setFb clearFrame)

/-- The first address outside memory among `n` addresses from `addr` on, lowest first. -/
def firstBadFrom : Nat → Nat → Option Nat
  | _, 0 => none
  | addr, n + 1 => if memSize ≤ addr then some addr else firstBadFrom (addr + 1) n

/-- The first sprite address `I + i`, `i < n`, outside memory (R171, R203), or none. The sum is a natural number and
does not wrap (R174). -/
def firstBadSprite (i : Word) (n : Nat) : Option Nat := firstBadFrom i.toNat n

/-- What the draw has done so far: the framebuffer and whether a lit pixel was unlit. -/
structure Drawing where
  fb : Frame
  collide : Bool
deriving DecidableEq, Repr

/-- The column sprite bit `j` lands on: `(X + j) mod 64` (R172). -/
def spriteCol (X : Byte) (j : Nat) : Col := ⟨(X.toNat + j) % fbWidth, Nat.mod_lt _ (by decide)⟩

/-- The row sprite byte `i` lands on: `(Y + i) mod 32` (R172). -/
def spriteRow (Y : Byte) (i : Nat) : Row := ⟨(Y.toNat + i) % fbHeight, Nat.mod_lt _ (by decide)⟩

/-- One set sprite bit: note whether the pixel is lit, then flip it (R171). -/
def Drawing.flip (d : Drawing) (px : Col) (py : Row) : Drawing :=
  ⟨flipPixel d.fb px py, d.collide || pixelAt d.fb px py⟩

/-- Bit `j` of a sprite row, most significant bit first; a 0 bit leaves its pixel (R171). -/
def drawBit (X : Byte) (py : Row) (row : Byte) (d : Drawing) (j : Nat) : Drawing :=
  if row.getLsbD (7 - j) then d.flip (spriteCol X j) py else d

/-- One sprite row, 8 pixels. -/
def drawRow (X Y : Byte) (m : Memory) (base : Nat) (d : Drawing) (i : Nat) : Drawing :=
  (List.range 8).foldl (drawBit X (spriteRow Y i) (m.read (base + i))) d

/-- The whole sprite: rows `0 .. n-1`, read from `base + i` (R171, R175). -/
def drawSprite (X Y : Byte) (m : Memory) (base n : Nat) (fb : Frame) : Drawing :=
  (List.range n).foldl (drawRow X Y m base) ⟨fb, false⟩

/-- The draw of an instruction in a state: coordinates and addresses from the state before the step (R171). -/
def State.drawn (s : State) (a b : Reg) (n : Nibble) : Drawing :=
  drawSprite (s.reg a) (s.reg b) s.mem s.i.toNat (rowCount n) s.fb

/-- R171 DRW Va, Vb, n: every sprite address is checked first, so the draw is atomic (R174, D2); VF is written after
the draw (R173). -/
def execDrw (a b : Reg) (n : Nibble) (s : State) : Host.Outcome State Fault Refusal :=
  .next (match firstBadSprite s.i (rowCount n) with
    | some addr => s.raise (.outOfRange s.pc addr)
    | none =>
      (s.advance.setFb (s.drawn a b n).fb).setReg VF (flagByte (s.drawn a b n).collide))

end Sys2Proof.Machine
end

