-- ==== Sys2Proof/Machine/Dispatch.lean ====
section
/-! DEFINITION. One arm per instruction (30_encoding.md R75), each one call of its meaning. -/

namespace Sys2Proof.Machine

def exec (i : Instr) (s : State) : Host.Outcome State Fault Refusal :=
  match i with
  | .cls => Sys2Proof.Machine.execCls s
  | .ret => Sys2Proof.Machine.execRet s
  | .jp nnn => Sys2Proof.Machine.execJp nnn s
  | .call nnn => Sys2Proof.Machine.execCall nnn s
  | .seImm a kk => Sys2Proof.Machine.execSeImm a kk s
  | .sneImm a kk => Sys2Proof.Machine.execSneImm a kk s
  | .seReg a b n => Sys2Proof.Machine.execSeReg a b n s
  | .ldImm a kk => Sys2Proof.Machine.execLdImm a kk s
  | .addImm a kk => Sys2Proof.Machine.execAddImm a kk s
  | .ldReg a b => Sys2Proof.Machine.execLdReg a b s
  | .orReg a b => Sys2Proof.Machine.execOrReg a b s
  | .andReg a b => Sys2Proof.Machine.execAndReg a b s
  | .xorReg a b => Sys2Proof.Machine.execXorReg a b s
  | .addReg a b => Sys2Proof.Machine.execAddReg a b s
  | .subReg a b => Sys2Proof.Machine.execSubReg a b s
  | .shr a b => Sys2Proof.Machine.execShr a b s
  | .subn a b => Sys2Proof.Machine.execSubn a b s
  | .shl a b => Sys2Proof.Machine.execShl a b s
  | .sneReg a b n => Sys2Proof.Machine.execSneReg a b n s
  | .ldI nnn => Sys2Proof.Machine.execLdI nnn s
  | .jpV0 nnn => Sys2Proof.Machine.execJpV0 nnn s
  | .rnd a kk => Sys2Proof.Machine.execRnd a kk s
  | .drw a b n => Sys2Proof.Machine.execDrw a b n s

end Sys2Proof.Machine
end

