-- ==== Sys2Proof/Machine/Step.lean ====
section
/-! DEFINITION. The step cycle of 30_encoding.md R74, with the fault order of 60_exceptions.md R203. -/

namespace Sys2Proof.Machine

/-- One step. A latched fault is answered at once (R202). A fetch out of range and an invalid word are latched, and
nothing else changes (R201, R53, R76). Otherwise the decoded instruction runs; its meaning makes the fetch advance. -/
def step (s : State) : Host.Outcome State Fault Refusal :=
  match s.fault with
  | some f => .fault f
  | none =>
    match s.fetch with
    | .error f => .next (s.raise f)
    | .ok w =>
      match decode w with
      | none => .next (s.raise (.invalidOpcode s.pc w))
      | some i => exec i s

/-- The state with an opcode-table word stored where the next step fetches. It stands for the host load of a program
(70_reset_and_hazards.md R232); log entry 6. -/
def State.withFetchWord (s : State) (nbits w : Nat) : State := s.placeWord (BitVec.ofNat 16 (w % 2 ^ nbits))

end Sys2Proof.Machine
end

