-- ==== Sys2Proof/Machine/Assembler.lean ====
section
/-! DEFINITION. The assembler and disassembler of 30_encoding.md R80 and R81: not part of the core, and nothing in
the step uses them. Text is a list of characters. What R80 leaves open of the text (white space, what a label name
may hold, a label written twice) is log entry 9. -/

namespace Sys2Proof.Machine

/-! ## One line with its labels resolved -/

/-- A register operand, when in range (R80). -/
def regOperand (r : Nat) : Option Reg := if regOk r then some (BitVec.ofNat 4 r) else none

/-- A `kk` operand, when in range (R80). -/
def kkOperand (v : Nat) : Option Byte := if kkOk v then some (BitVec.ofNat 8 v) else none

/-- An `nnn` operand, when in range (R80). -/
def nnnOperand (v : Nat) : Option Addr12 := if nnnOk v then some (BitVec.ofNat 12 v) else none

/-- An `n` operand, when in range (R80). -/
def heightOperand (v : Nat) : Option Nibble := if heightOk v then some (BitVec.ofNat 4 v) else none

/-- An instruction with a register and an immediate. -/
def asmRegImm (f : Reg → Byte → Instr) (r v : Nat) : Option Instr :=
  match regOperand r, kkOperand v with
  | some a, some kk => some (f a kk)
  | _, _ => none

/-- An instruction with two registers. -/
def asmRegReg (f : Reg → Reg → Instr) (r q : Nat) : Option Instr :=
  match regOperand r, regOperand q with
  | some a, some b => some (f a b)
  | _, _ => none

/-- The instruction of a line, or none for an assembly error (R80). SE and SNE of two registers get `N = 0`, the
one-operand SHR and SHL get `b = 0` (R80). -/
def instrOfLine (l : AsmInstr) : Option Instr :=
  match l.op, l.args with
  | .cls, [] => some .cls
  | .ret, [] => some .ret
  | .jp, [.num v] => (nnnOperand v).map .jp
  | .jp, [.reg r, .num v] => if r = 0 then (nnnOperand v).map .jpV0 else none
  | .call, [.num v] => (nnnOperand v).map .call
  | .ld, [.index, .num v] => (nnnOperand v).map .ldI
  | .se, [.reg r, .num v] => asmRegImm .seImm r v
  | .sne, [.reg r, .num v] => asmRegImm .sneImm r v
  | .ld, [.reg r, .num v] => asmRegImm .ldImm r v
  | .add, [.reg r, .num v] => asmRegImm .addImm r v
  | .rnd, [.reg r, .num v] => asmRegImm .rnd r v
  | .se, [.reg r, .reg q] => asmRegReg (fun a b => .seReg a b 0#4) r q
  | .sne, [.reg r, .reg q] => asmRegReg (fun a b => .sneReg a b 0#4) r q
  | .ld, [.reg r, .reg q] => asmRegReg .ldReg r q
  | .or, [.reg r, .reg q] => asmRegReg .orReg r q
  | .and, [.reg r, .reg q] => asmRegReg .andReg r q
  | .xor, [.reg r, .reg q] => asmRegReg .xorReg r q
  | .add, [.reg r, .reg q] => asmRegReg .addReg r q
  | .sub, [.reg r, .reg q] => asmRegReg .subReg r q
  | .shr, [.reg r, .reg q] => asmRegReg .shr r q
  | .subn, [.reg r, .reg q] => asmRegReg .subn r q
  | .shl, [.reg r, .reg q] => asmRegReg .shl r q
  | .shr, [.reg r] => (regOperand r).map (fun a => .shr a 0#4)
  | .shl, [.reg r] => (regOperand r).map (fun a => .shl a 0#4)
  | .drw, [.reg r, .reg q, .num v] =>
    match regOperand r, regOperand q, heightOperand v with
    | some a, some b, some n => some (.drw a b n)
    | _, _, _ => none
  | _, _ => none

/-- The line a disassembler prints for an instruction: 5abN and 9abN for any `N` as SE or SNE (R80). -/
def lineOfInstr : Instr → AsmInstr
  | .cls => ⟨.cls, []⟩
  | .ret => ⟨.ret, []⟩
  | .jp nnn => ⟨.jp, [.num nnn.toNat]⟩
  | .call nnn => ⟨.call, [.num nnn.toNat]⟩
  | .seImm a kk => ⟨.se, [.reg a.toNat, .num kk.toNat]⟩
  | .sneImm a kk => ⟨.sne, [.reg a.toNat, .num kk.toNat]⟩
  | .seReg a b _ => ⟨.se, [.reg a.toNat, .reg b.toNat]⟩
  | .ldImm a kk => ⟨.ld, [.reg a.toNat, .num kk.toNat]⟩
  | .addImm a kk => ⟨.add, [.reg a.toNat, .num kk.toNat]⟩
  | .ldReg a b => ⟨.ld, [.reg a.toNat, .reg b.toNat]⟩
  | .orReg a b => ⟨.or, [.reg a.toNat, .reg b.toNat]⟩
  | .andReg a b => ⟨.and, [.reg a.toNat, .reg b.toNat]⟩
  | .xorReg a b => ⟨.xor, [.reg a.toNat, .reg b.toNat]⟩
  | .addReg a b => ⟨.add, [.reg a.toNat, .reg b.toNat]⟩
  | .subReg a b => ⟨.sub, [.reg a.toNat, .reg b.toNat]⟩
  | .shr a b => ⟨.shr, [.reg a.toNat, .reg b.toNat]⟩
  | .subn a b => ⟨.subn, [.reg a.toNat, .reg b.toNat]⟩
  | .shl a b => ⟨.shl, [.reg a.toNat, .reg b.toNat]⟩
  | .sneReg a b _ => ⟨.sne, [.reg a.toNat, .reg b.toNat]⟩
  | .ldI nnn => ⟨.ld, [.index, .num nnn.toNat]⟩
  | .jpV0 nnn => ⟨.jp, [.reg 0, .num nnn.toNat]⟩
  | .rnd a kk => ⟨.rnd, [.reg a.toNat, .num kk.toNat]⟩
  | .drw a b n => ⟨.drw, [.reg a.toNat, .reg b.toNat, .num n.toNat]⟩

/-! ## Text -/

/-- The mnemonics as text (R80). -/
def mnemonicNames : List (Mnemonic × List Char) :=
  [(.cls, ['C', 'L', 'S']), (.ret, ['R', 'E', 'T']), (.jp, ['J', 'P']), (.call, ['C', 'A', 'L', 'L']),
   (.se, ['S', 'E']), (.sne, ['S', 'N', 'E']), (.ld, ['L', 'D']), (.add, ['A', 'D', 'D']),
   (.or, ['O', 'R'])] ++
  [(.and, ['A', 'N', 'D']), (.xor, ['X', 'O', 'R']), (.sub, ['S', 'U', 'B']), (.shr, ['S', 'H', 'R']),
   (.subn, ['S', 'U', 'B', 'N']), (.shl, ['S', 'H', 'L']), (.rnd, ['R', 'N', 'D']), (.drw, ['D', 'R', 'W'])]

/-- White space within a line. -/
def isBlank (c : Char) : Bool := c = ' ' || c = '\t' || c = '\r'

/-- Without the white space at both ends. -/
def trimText (l : List Char) : List Char := ((l.dropWhile isBlank).reverse.dropWhile isBlank).reverse

/-- The pieces between separators. -/
def splitText (sep : Char) : List Char → List (List Char)
  | [] => [[]]
  | c :: cs =>
    if c = sep then [] :: splitText sep cs
    else match splitText sep cs with
      | [] => [[c]]
      | w :: ws => (c :: w) :: ws

/-- The value of a hexadecimal digit of either case. -/
def hexValue (c : Char) : Option Nat :=
  if '0' ≤ c ∧ c ≤ '9' then some (c.toNat - '0'.toNat)
  else if 'a' ≤ c ∧ c ≤ 'f' then some (c.toNat - 'a'.toNat + 10)
  else if 'A' ≤ c ∧ c ≤ 'F' then some (c.toNat - 'A'.toNat + 10)
  else none

/-- The value of a run of digits in a base. -/
def digitsValue (base : Nat) : Nat → List Char → Option Nat
  | acc, [] => some acc
  | acc, c :: cs =>
    match hexValue c with
    | some d => if d < base then digitsValue base (acc * base + d) cs else none
    | none => none

/-- "immediates are decimal, or hexadecimal with `0x`" (R80). -/
def parseNumber : List Char → Option Nat
  | '0' :: 'x' :: c :: cs => digitsValue 16 0 (c :: cs)
  | c :: cs => digitsValue 10 0 (c :: cs)
  | [] => none

/-- An operand as written, a label not yet resolved. -/
inductive AsmToken where
  | val (v : AsmOperand)
  | label (name : List Char)
deriving DecidableEq, Repr

/-- A label name: a letter or `_`, then letters, digits or `_` (log entry 9). -/
def isLabelName : List Char → Bool
  | [] => false
  | c :: cs => (c.isAlpha || c = '_') && cs.all (fun d => d.isAlphanum || d = '_')

/-- One operand: `V0` .. `VF` and `I` of either case, a number, or a label (R80). -/
def parseOperand (l : List Char) : Option AsmToken :=
  match l with
  | ['I'] | ['i'] => some (.val .index)
  | c :: cs =>
    if c = 'V' || c = 'v' then
      match cs with
      | [d] => match hexValue d with
        | some r => some (.val (.reg r))
        | none => if isLabelName l then some (.label l) else none
      | _ => if isLabelName l then some (.label l) else none
    else if c.isDigit then (parseNumber l).map (fun v => .val (.num v))
    else if isLabelName l then some (.label l) else none
  | [] => none

/-- The operands between commas. -/
def parseOperands (l : List Char) : Option (List AsmToken) :=
  if l = [] then some [] else (splitText ',' l).mapM (fun p => parseOperand (trimText p))

/-- What a source line holds. -/
inductive AsmItem where
  | label (name : List Char)
  | instr (op : Mnemonic) (args : List AsmToken)
  | data (bytes : List Byte)
deriving DecidableEq, Repr

/-- A byte of a `DB` directive. -/
def dataByte : AsmToken → Option Byte
  | .val (.num v) => kkOperand v
  | _ => none

/-- An instruction or a `DB` directive; mnemonics are case-insensitive (R80). -/
def parseStatement (l : List Char) : Option AsmItem :=
  let name := (l.takeWhile (fun c => !isBlank c)).map Char.toUpper
  match parseOperands (trimText (l.dropWhile (fun c => !isBlank c))) with
  | none => none
  | some args =>
    if name = ['D', 'B'] then
      if args = [] then none else (args.mapM dataByte).map .data
    else (mnemonicNames.find? (fun e => e.2 = name)).map (fun e => .instr e.1 args)

/-- A line: `;` starts a comment, `label:` defines a label (R80). -/
def parseLine (l : List Char) : Option (List AsmItem) :=
  let text := trimText (l.takeWhile (· ≠ ';'))
  if text = [] then some []
  else if ':' ∈ text then
    let name := trimText (text.takeWhile (· ≠ ':'))
    let rest := trimText ((text.dropWhile (· ≠ ':')).drop 1)
    if isLabelName name then
      if rest = [] then some [.label name] else (parseStatement rest).map (fun i => [.label name, i])
    else none
  else (parseStatement text).map (fun i => [i])

/-- The items of a source text, "one instruction per line" (R80). -/
def parseSource (src : List Char) : Option (List AsmItem) :=
  ((splitText '\n' src).mapM parseLine).map List.flatten

/-- The address of every label, the first item standing at `addr`. -/
def labelTable : Nat → List AsmItem → List (List Char × Nat)
  | _, [] => []
  | addr, .label name :: items => (name, addr) :: labelTable addr items
  | addr, .instr _ _ :: items => labelTable (addr + 2) items
  | addr, .data bytes :: items => labelTable (addr + bytes.length) items

/-- A label stands only where an `nnn` does (R80). -/
def labelAllowed (op : Mnemonic) (args : List AsmToken) : Bool :=
  match op, args with
  | .jp, _ | .call, _ | .ld, .val .index :: _ => true
  | _, _ => false

/-- An operand with its label replaced by its address. -/
def resolveToken (labels : List (List Char × Nat)) (allowed : Bool) : AsmToken → Option AsmOperand
  | .val v => some v
  | .label name => if allowed then (labels.find? (fun e => e.1 = name)).map (fun e => .num e.2) else none

/-- The bytes of an item. -/
def itemBytes (labels : List (List Char × Nat)) : AsmItem → Option (List Byte)
  | .label _ => some []
  | .data bytes => some bytes
  | .instr op args =>
    match args.mapM (resolveToken labels (labelAllowed op args)) with
    | none => none
    | some vs => (instrOfLine ⟨op, vs⟩).map encode

/-- The image of a source text that is loaded at `org`, or none for an assembly error (R80). -/
def assemble (org : Nat) (src : List Char) : Option (List Byte) :=
  match parseSource src with
  | none => none
  | some items =>
    let labels := labelTable org items
    if (labels.map Prod.fst).Nodup then (items.mapM (itemBytes labels)).map List.flatten else none

/-! ## Disassembly -/

/-- A hexadecimal digit, capital. -/
def hexDigit (n : Nat) : Char := if n < 10 then Char.ofNat ('0'.toNat + n) else Char.ofNat ('A'.toNat + (n - 10))

/-- `width` hexadecimal digits of a number, the most significant first. -/
def hexDigits : Nat → Nat → List Char
  | 0, _ => []
  | width + 1, v => hexDigits width (v / 16) ++ [hexDigit (v % 16)]

/-- A hex immediate (R80), with as many digits as its field has nibbles. -/
def hexText (width v : Nat) : List Char := '0' :: 'x' :: hexDigits width v

/-- A register, `V0` .. `VF` (R80). -/
def regText (r : Reg) : List Char := ['V', hexDigit r.toNat]

/-- The text of a mnemonic. -/
def mnemonicText (m : Mnemonic) : List Char :=
  match mnemonicNames.find? (fun e => e.1 = m) with
  | some e => e.2
  | none => []

/-- A mnemonic and its operands, separated by commas. -/
def lineText (m : Mnemonic) : List (List Char) → List Char
  | [] => mnemonicText m
  | p :: ps => mnemonicText m ++ [' '] ++ p ++ (ps.map (fun q => [',', ' '] ++ q)).flatten

/-- The line a disassembler prints: the forms of R75 with hex immediates (R80). -/
def instrText : Instr → List Char
  | .cls => lineText .cls []
  | .ret => lineText .ret []
  | .jp nnn => lineText .jp [hexText 3 nnn.toNat]
  | .call nnn => lineText .call [hexText 3 nnn.toNat]
  | .seImm a kk => lineText .se [regText a, hexText 2 kk.toNat]
  | .sneImm a kk => lineText .sne [regText a, hexText 2 kk.toNat]
  | .seReg a b _ => lineText .se [regText a, regText b]
  | .ldImm a kk => lineText .ld [regText a, hexText 2 kk.toNat]
  | .addImm a kk => lineText .add [regText a, hexText 2 kk.toNat]
  | .ldReg a b => lineText .ld [regText a, regText b]
  | .orReg a b => lineText .or [regText a, regText b]
  | .andReg a b => lineText .and [regText a, regText b]
  | .xorReg a b => lineText .xor [regText a, regText b]
  | .addReg a b => lineText .add [regText a, regText b]
  | .subReg a b => lineText .sub [regText a, regText b]
  | .shr a b => lineText .shr [regText a, regText b]
  | .subn a b => lineText .subn [regText a, regText b]
  | .shl a b => lineText .shl [regText a, regText b]
  | .sneReg a b _ => lineText .sne [regText a, regText b]
  | .ldI nnn => lineText .ld [['I'], hexText 3 nnn.toNat]
  | .jpV0 nnn => lineText .jp [regText 0x0#4, hexText 3 nnn.toNat]
  | .rnd a kk => lineText .rnd [regText a, hexText 2 kk.toNat]
  | .drw a b n => lineText .drw [regText a, regText b, hexText 1 n.toNat]

/-- The line of a word, none where the word is invalid. -/
def disassemble (w : Word) : Option (List Char) := (decode w).map instrText

end Sys2Proof.Machine
end

