-- ==== Sys2Proof/Machine/HostPort.lean ====
section
/-! DEFINITION. The core's interface to its host: the transactions of 60_exceptions.md R210, one at a time and never
during a step (R58, D8). -/

namespace Sys2Proof.Machine

/-! ## The status codes of R200 (D12) -/

/-- The code of a fault kind. -/
def Fault.code : Fault → Nat
  | .invalidOpcode _ _ => 1
  | .stackUnderflow _ => 2
  | .outOfRange _ _ => 3
  | .stackOverflow _ => 4

/-- The address of the faulting instruction (R201: "the recorded `pc0`"). -/
def Fault.pc0 : Fault → Word
  | .invalidOpcode p _ | .stackUnderflow p | .outOfRange p _ | .stackOverflow p => p

/-- The further info recorded: the word, or the first bad address (R200). -/
def Fault.info : Fault → Option Nat
  | .invalidOpcode _ w => some w.toNat
  | .outOfRange _ addr => some addr
  | .stackUnderflow _ | .stackOverflow _ => none

/-- The code of the latch: 0 is `None` (R200). -/
def latchCode : Option Fault → Nat
  | none => 0
  | some f => f.code

/-- `step_status`: `Ok`, or `Fault(code, pc0, info)` (R210). -/
inductive StepStatus where
  | ok
  | fault (code : Nat) (pc0 : Word) (info : Option Nat)
deriving DecidableEq, Repr

/-- The status that goes with a latch: the host reads the latch as the step status (R30). -/
def statusOf : Option Fault → StepStatus
  | none => .ok
  | some f => .fault f.code f.pc0 f.info

/-! ## Transactions -/

/-- The packed framebuffer view: byte `k` holds pixels `8k .. 8k+7`, pixel `8k` in bit 7 (10_state.md R29, D10). -/
def fbByte (fb : Frame) (k : BitVec 8) : Byte :=
  ((fb[k.toNat / 8]'(by have := k.isLt; omega)).extractLsb' (8 * (k.toNat % 8)) 8).reverse

/-- What the host can ask of the core (R210). -/
inductive Transaction where
  /-- `rst` -/
  | rst
  /-- `load(org, img)` (R62) -/
  | load (org : Nat) (img : List Byte)
  /-- `step_req` -/
  | stepReq
  /-- a byte on `rand_in`, queued for the next request (log entry 3) -/
  | randByte (v : Byte)
  /-- read `DT` -/
  | dtRd
  /-- read `ST` -/
  | stRd
  /-- write `DT` -/
  | dtWr (v : Byte)
  /-- write `ST` -/
  | stWr (v : Byte)
  /-- `fb_width` (R177) -/
  | fbWidthRd
  /-- `fb_height` (R177) -/
  | fbHeightRd
  /-- `fb_rd[k]`, `k` in 0..255 -/
  | fbRd (k : BitVec 8)
  /-- `mem_rd[addr]`, `addr` in 0..4095 (R63) -/
  | memRd (addr : Addr12)
  /-- `fault_rd` -/
  | faultRd
deriving DecidableEq, Repr

/-- What the core answers. -/
inductive Reply where
  /-- the transaction is done and returns nothing -/
  | done
  /-- a load past the end of memory, refused (R62, D9) -/
  | refused
  /-- `step_status`, and whether the step raised `rand_req` -/
  | status (st : StepStatus) (randReq : Bool)
  /-- a byte read -/
  | byte (v : Byte)
  /-- a dimension of the framebuffer -/
  | dimension (n : Nat)
  /-- the fault latch with its code (R200) -/
  | latch (code : Nat) (f : Option Fault)
deriving DecidableEq, Repr

/-- The load fits: `org + len <= 4096` (R62). -/
def loadFits (org : Nat) (img : List Byte) : Bool := decide (org + img.length ≤ memSize)

/-- The state after a load: the addressed bytes, or nothing when it does not fit (R62, D9). -/
def State.load (s : State) (org : Nat) (img : List Byte) : State :=
  if loadFits org img then { s with mem := s.mem.writeRun org img } else s

/-- The state after `step_req`. A step that answers a fault changes nothing (R202). -/
def State.afterStep (s : State) : State :=
  match step s with
  | .next t => t
  | .fault _ => s
  | .refused _ => s

/-- The state after a transaction. -/
def State.after (s : State) : Transaction → State
  | .rst => s.rst
  | .load org img => s.load org img
  | .stepReq => s.afterStep
  | .randByte v => { s with rand := ⟨s.rand.pending ++ [v], s.rand.count⟩ }
  | .dtWr v => { s with dt := v }
  | .stWr v => { s with st := v }
  | .dtRd | .stRd | .fbWidthRd | .fbHeightRd | .fbRd _ | .memRd _ | .faultRd => s

/-- The core's answer to a transaction in the state before it. -/
def State.reply (s : State) : Transaction → Reply
  | .rst | .randByte _ | .dtWr _ | .stWr _ => .done
  | .load org img => if loadFits org img then .done else .refused
  | .stepReq => .status (statusOf s.afterStep.fault) (decide (s.afterStep.rand.count ≠ s.rand.count))
  | .dtRd => .byte s.dt
  | .stRd => .byte s.st
  | .fbWidthRd => .dimension fbWidth
  | .fbHeightRd => .dimension fbHeight
  | .fbRd k => .byte (fbByte s.fb k)
  | .memRd addr => .byte (s.byteAt addr.toNat)
  | .faultRd => .latch (latchCode s.fault) s.fault

/-- The state after a sequence of transactions, in order (R58). -/
def State.afterAll : State → List Transaction → State
  | s, [] => s
  | s, t :: ts => (s.after t).afterAll ts

end Sys2Proof.Machine
end

