-- ==== Sys2Proof/Safety.lean ====
section
/-! DEFINITION. What a safe state and the end of a run are (70_reset_and_hazards.md R237), the invariant of every
state the machine reaches, and the words the statements share. -/

namespace Sys2Proof.Machine

/-! ## The end of a run (R237, D15) -/

/-- The word at `pc` is `1nnn` with `nnn == pc`. -/
def State.selfJump (s : State) : Bool :=
  match s.fetch with
  | .ok w => decide (opField w = 0x1#4 ∧ addr16 (nnnField w) = s.pc)
  | .error _ => false

/-- A good end: a self-jump, and no fault latched. -/
def State.goodEnd (s : State) : Bool := s.fault.isNone && s.selfJump

/-- A bad end: a fault latched. -/
def State.badEnd (s : State) : Bool := s.fault.isSome

/-- How a run under fuel ends (R237, R238). -/
inductive RunEnd where
  | good (s : State)
  | bad (s : State)
  | outOfFuel (s : State)
deriving DecidableEq, Repr

/-- Run until the first good or bad end, for at most `fuel` steps (R237, R238). -/
def State.runToEnd : Nat → State → RunEnd
  | 0, s => if s.badEnd then .bad s else if s.goodEnd then .good s else .outOfFuel s
  | fuel + 1, s =>
    if s.badEnd then .bad s else if s.goodEnd then .good s else State.runToEnd fuel s.afterStep

/-- A safe state: no fault is latched. "A faulted state is never a good final state" (R202). -/
def State.safe (s : State) : Prop := s.fault = none

/-! ## The invariant -/

/-- What a latched fault says is true of the state it left (R200, R201). -/
def State.faultTruthful (s : State) : Prop :=
  match s.fault with
  | none => True
  | some (.invalidOpcode p w) => p = s.pc ∧ decode w = none
  | some (.stackUnderflow p) => p = s.pc ∧ s.stack = []
  | some (.outOfRange p addr) => p = s.pc ∧ memSize ≤ addr
  | some (.stackOverflow p) => p = s.pc ∧ s.config.stackLimit = some s.stack.length

/-- The invariant every step and every transaction keeps. -/
structure State.Inv (s : State) : Prop where
  /-- memory is in its canonical form -/
  memWf : s.mem.wf
  /-- `I` lies in 0x000..0xFFF (10_state.md R31) -/
  indexBound : s.i.toNat ≤ 0xFFF
  /-- `pc` never passes Bnnn's largest target (R32) -/
  pcBound : s.pc.toNat ≤ 0x10FE
  /-- a return address is at most 0x1000 (R101) -/
  stackBound : ∀ r ∈ s.stack, r.toNat ≤ 0x1000
  /-- the stack respects a finite STACK_LIMIT (R103) -/
  stackLimit : ∀ limit, s.config.stackLimit = some limit → s.stack.length ≤ limit
  /-- the latch tells the truth (R200, R201) -/
  latch : s.faultTruthful

/-! ## Words of the statements -/

/-- Every byte of memory reads as before. -/
def SameMemory (s t : State) : Prop := ∀ addr, t.byteAt addr = s.byteAt addr

/-- What no instruction that completes changes, whatever it is: both timers, the latch, the parameter, and every byte
of memory (R27, R201, R20, R52). -/
def SameAlways (s t : State) : Prop :=
  t.dt = s.dt ∧ t.st = s.st ∧ t.fault = s.fault ∧ t.config = s.config ∧ SameMemory s t

/-- Everything but the general registers and `pc` is the same: `I`, the call stack, the framebuffer, the random port,
and what no instruction changes. -/
def SameButRegsPc (s t : State) : Prop :=
  t.i = s.i ∧ t.stack = s.stack ∧ t.fb = s.fb ∧ t.rand = s.rand ∧ SameAlways s t

/-- Every general register is the same (`VF` among them). -/
def SameRegs (s t : State) : Prop := ∀ r, t.reg r = s.reg r

/-- Every general register outside the list is the same. -/
def SameRegsBut (rs : List Reg) (s t : State) : Prop := ∀ r, r ∉ rs → t.reg r = s.reg r

/-- The state with other values in the two timers. -/
def State.withTimers (s : State) (d e : Byte) : State := { s with dt := d, st := e }

/-- The state after `n` step requests and nothing else. -/
def State.afterSteps (s : State) (n : Nat) : State := s.afterAll (List.replicate n .stepReq)

/-- Pixel `(px, py)` is under a set bit of the sprite that DRW `a`, `b`, `n` draws in `s`: bit `7 - j` of the byte at
`I + k` is 1 and lands there (42_display.md R171, R172). -/
def UnderSprite (s : State) (a b : Reg) (n : Nibble) (px : Col) (py : Row) : Prop :=
  ∃ k j, k < n.toNat ∧ j < 8 ∧ (s.byteAt (s.i.toNat + k)).getLsbD (7 - j) = true ∧
    px.val = ((s.reg a).toNat + j) % 64 ∧ py.val = ((s.reg b).toNat + k) % 32

/-- Every sprite byte of DRW with height `n` is in memory (R171). -/
def SpriteInRange (s : State) (n : Nibble) : Prop := ∀ k, k < n.toNat → s.i.toNat + k < memSize

/-- The instruction with the nibble that an assembler cannot write set to 0 (R80). -/
def assembled : Instr → Instr
  | .seReg a b _ => .seReg a b 0#4
  | .sneReg a b _ => .sneReg a b 0#4
  | i => i

/-- The registers an instruction reads (10_state.md R22, the table's second column). -/
def readsRegs : Instr → List Reg
  | .cls | .ret | .jp _ | .call _ | .ldImm _ _ | .ldI _ | .rnd _ _ => []
  | .seImm a _ | .sneImm a _ | .addImm a _ | .shr a _ | .shl a _ => [a]
  | .ldReg _ b => [b]
  | .seReg a b _ | .sneReg a b _ | .orReg a b | .andReg a b | .xorReg a b | .addReg a b | .subReg a b
  | .subn a b | .drw a b _ => [a, b]
  | .jpV0 _ => [0x0#4]

/-- The registers an instruction writes (10_state.md R22, the table's third column). -/
def writesRegs : Instr → List Reg
  | .cls | .ret | .jp _ | .call _ | .seImm _ _ | .sneImm _ _ | .seReg _ _ _ | .sneReg _ _ _ | .ldI _
  | .jpV0 _ => []
  | .ldImm a _ | .addImm a _ | .ldReg a _ | .orReg a _ | .andReg a _ | .xorReg a _ | .rnd a _ => [a]
  | .addReg a _ | .subReg a _ | .shr a _ | .subn a _ | .shl a _ => [a, VF]
  | .drw _ _ _ => [VF]

end Sys2Proof.Machine
end

