-- ==== Sys2Proof/Certificates/Slice0/Obligations.lean ====
section
/-! DEFINITION. The statements for the provers. A spec rule that carries a "[decision: ...]" mark is the spec's own
choice; statements that rest on one are listed with basis "derived". The form of a fault as a next state whose latch
is set is log entry 1 (00_scope.md R12 `raise`, 60_exceptions.md R201, D1). -/

open Sys2Proof Sys2Proof.Machine

/-! ## Reset and the invariant -/

/-- 10_state.md R40, row by row (the latch row is decision D1); the parameter is at its default (R8, D6; log 2). -/
def Obligations.ResetLeavesEveryFieldAtItsValue : Prop :=
  (∀ addr, addr < 4096 → State.reset.byteAt addr = 0x00#8) ∧ (∀ r, State.reset.reg r = 0x00#8) ∧
    State.reset.i = 0x0000#16 ∧ State.reset.pc = 0x0200#16 ∧ State.reset.stack = [] ∧
    State.reset.dt = 0x00#8 ∧ State.reset.st = 0x00#8 ∧
    (∀ px py, State.reset.pixel px py = false) ∧
    State.reset.fault = none ∧ State.reset.config.stackLimit = none

/-- The invariant `State.Inv` of Safety.lean holds right after reset. -/
def Obligations.ResetMeetsTheInvariant : Prop := State.reset.Inv

/-- Every step keeps the invariant: canonical memory, `I` at most 0xFFF (R31), `pc` at most 0x10FE (R32), return
addresses at most 0x1000 (R101), the stack within a finite STACK_LIMIT (R103), and a latch that tells the truth about
the state it left (R200, R201). -/
def Obligations.StepKeepsTheInvariant : Prop := ∀ s t : State, s.Inv → step s = .next t → t.Inv

/-- Every sequence of host transactions, steps among them and any images loaded, keeps the invariant (R210, R58). -/
def Obligations.TransactionsKeepTheInvariant : Prop :=
  ∀ (s : State) (ts : List Transaction), s.Inv → (s.afterAll ts).Inv

/-- Two memories in canonical form that read the same at every address are the same list (R50). -/
def Obligations.CanonicalMemoriesReadingAlikeAreEqual : Prop :=
  ∀ m n : Memory, m.wf → n.wf → (∀ addr, m.read addr = n.read addr) → m = n

/-! ## Encoding -/

/-- Decoding gives back every well-formed instruction, as a word and from bytes, and leaves the bytes after it. -/
def Obligations.DecodingAnEncodedInstructionGivesItBack : Prop :=
  ∀ (i : Instr) (rest : List Byte), i.wellFormed = true →
    decode (encodeWord i) = some i ∧ decodeBytes (encode i ++ rest) = .ok (i, rest)

/-- Encoding gives back every word that decodes: no bit of a valid word is dropped. -/
def Obligations.EncodingADecodedWordGivesItBack : Prop :=
  ∀ (w : Word) (i : Instr), decode w = some i → encodeWord i = w

/-- The decoder is the opcode table (R75): a decoded word lies in its instruction's row and in no other, and a word
is invalid exactly when it lies in no row. -/
def Obligations.DecoderAgreesWithTheOpcodeTable : Prop :=
  (∀ (w : Word) (i : Instr), decode w = some i →
    ∀ r ∈ opcodeTable, r.covers w = true ↔ r = i.row) ∧
  ∀ w : Word, decode w = none ↔ ∀ r ∈ opcodeTable, r.covers w = false

/-- Which words are invalid, and how many (R76). -/
def Obligations.InvalidWordsAreTheListedOnes : Prop :=
  (∀ w : Word, decode w = none ↔
    (w.toNat ≤ 0x0FFF ∧ w ≠ 0x00E0#16 ∧ w ≠ 0x00EE#16) ∨
    (0x8000 ≤ w.toNat ∧ w.toNat ≤ 0x8FFF ∧ (8 ≤ w.toNat % 16 ∧ w.toNat % 16 ≤ 0xD ∨ w.toNat % 16 = 0xF)) ∨
    0xE000 ≤ w.toNat) ∧
  ((List.range 65536).filter (fun k => (decode (BitVec.ofNat 16 k)).isNone)).length = 14078 ∧
  ((List.range 65536).filter (fun k => (decode (BitVec.ofNat 16 k)).isSome)).length = 51458

/-- Words written out bit by bit from the encodings of R101 to R171: one or more of each of the families 0 to D that
have instructions, every selector of family 8, and an invalid word of families 0, 8, E and F. -/
def Obligations.WordsWrittenOutDecodeToTheirInstructions : Prop :=
  decode 0b0000000011100000#16 = some .cls ∧ decode 0b0000000011101110#16 = some .ret ∧
    decode 0b0001001101000101#16 = some (.jp 0x345#12) ∧ decode 0b0010001101000101#16 = some (.call 0x345#12) ∧
    decode 0b0011001100010010#16 = some (.seImm 0x3#4 0x12#8) ∧
    decode 0b0100001100010010#16 = some (.sneImm 0x3#4 0x12#8) ∧
    decode 0b0101000100100111#16 = some (.seReg 0x1#4 0x2#4 0x7#4) ∧
    decode 0b0110101001000010#16 = some (.ldImm 0xA#4 0x42#8) ∧
    decode 0b0111001000100000#16 = some (.addImm 0x2#4 0x20#8) ∧
    decode 0b1000000100100000#16 = some (.ldReg 0x1#4 0x2#4) ∧
    decode 0b1000000100100001#16 = some (.orReg 0x1#4 0x2#4) ∧
    decode 0b1000000100100010#16 = some (.andReg 0x1#4 0x2#4) ∧
    decode 0b1000000100100011#16 = some (.xorReg 0x1#4 0x2#4) ∧
    decode 0b1000000100100100#16 = some (.addReg 0x1#4 0x2#4) ∧
    decode 0b1000000000010101#16 = some (.subReg 0x0#4 0x1#4) ∧
    decode 0b1000000100100110#16 = some (.shr 0x1#4 0x2#4) ∧
    decode 0b1000000100100111#16 = some (.subn 0x1#4 0x2#4) ∧
    decode 0b1000001000001110#16 = some (.shl 0x2#4 0x0#4) ∧
    decode 0b1001000100100000#16 = some (.sneReg 0x1#4 0x2#4 0x0#4) ∧
    decode 0b1010001011110000#16 = some (.ldI 0x2F0#12) ∧ decode 0b1011001100000000#16 = some (.jpV0 0x300#12) ∧
    decode 0b1100001100001111#16 = some (.rnd 0x3#4 0x0F#8) ∧
    decode 0b1101000000010011#16 = some (.drw 0x0#4 0x1#4 0x3#4) ∧
    decode 0x0123#16 = none ∧ decode 0x8018#16 = none ∧ decode 0xE09E#16 = none ∧ decode 0xF00A#16 = none

/-! ## The step -/

/-- With no fault latched and two bytes of memory at `pc`, odd or even, that decode (upper byte first) to `i`, the
step is exactly `exec i` of the same state: the meaning makes the fetch advance itself (R74, R54, R55). -/
def Obligations.StepRunsTheDecodedInstruction : Prop :=
  ∀ (s : State) (i : Instr) (rest : List Byte), s.fault = none → s.pc.toNat + 1 < 4096 →
    decodeBytes (s.byteAt s.pc.toNat :: s.byteAt (s.pc.toNat + 1) :: rest) = .ok (i, rest) → step s = exec i s

/-- The order of the fault checks (R203, D16; the fault kinds are R200; log 1). -/
def Obligations.FaultChecksRunInOrder : Prop :=
  ∀ s : State,
    (∀ f, s.fault = some f → step s = .fault f) ∧
    (s.fault = none → 4096 ≤ s.pc.toNat → step s = .next (s.raise (.outOfRange s.pc s.pc.toNat))) ∧
    (s.fault = none → s.pc.toNat = 4095 → step s = .next (s.raise (.outOfRange s.pc 4096))) ∧
    (s.fault = none → s.pc.toNat < 4095 → ∀ w : Word, w = s.byteAt s.pc.toNat ++ s.byteAt (s.pc.toNat + 1) →
      (decode w = none → step s = .next (s.raise (.invalidOpcode s.pc w))) ∧
      (decode w = some .ret → s.stack = [] → step s = .next (s.raise (.stackUnderflow s.pc))) ∧
      (∀ nnn, decode w = some (.call nnn) → s.config.stackLimit = some s.stack.length →
        step s = .next (s.raise (.stackOverflow s.pc))) ∧
      (∀ a b n k, decode w = some (.drw a b n) → k < n.toNat → 4096 ≤ s.i.toNat + k →
        (∀ m, m < k → s.i.toNat + m < 4096) → step s = .next (s.raise (.outOfRange s.pc (s.i.toNat + k)))))

/-- A step latches a fault for no other reason (R200, "No other error conditions are recognized by the core"). -/
def Obligations.FaultsAreLatchedOnlyForTheirReasons : Prop :=
  ∀ (s t : State) (f : Fault), step s = .next t → t.fault = some f →
    (4096 ≤ s.pc.toNat ∧ f = .outOfRange s.pc s.pc.toNat) ∨
    (s.pc.toNat = 4095 ∧ f = .outOfRange s.pc 4096) ∨
    (s.pc.toNat < 4095 ∧ ∃ w : Word, w = s.byteAt s.pc.toNat ++ s.byteAt (s.pc.toNat + 1) ∧
      ((decode w = none ∧ f = .invalidOpcode s.pc w) ∨
       (decode w = some .ret ∧ s.stack = [] ∧ f = .stackUnderflow s.pc) ∨
       ((∃ nnn, decode w = some (.call nnn)) ∧ s.config.stackLimit = some s.stack.length ∧
         f = .stackOverflow s.pc) ∨
       (∃ a b n k, decode w = some (.drw a b n) ∧ k < n.toNat ∧ 4096 ≤ s.i.toNat + k ∧
         (∀ m, m < k → s.i.toNat + m < 4096) ∧ f = .outOfRange s.pc (s.i.toNat + k))))

/-- Taking a fault changes the latch and nothing else, records the address of the faulting instruction, and is what
the host reads as the step status (R201, R13, D1). -/
def Obligations.TakingAFaultChangesOnlyTheLatch : Prop :=
  ∀ (s t : State) (f : Fault), step s = .next t → t.fault = some f →
    t = { s with fault := some f } ∧ f.pc0 = s.pc ∧
      s.reply .stepReq = .status (.fault f.code f.pc0 f.info) false

/-- A latched fault holds until reset, and the core stays halted: no transaction but `rst` clears or changes it or
moves the core's registers, stack, framebuffer, `I` or `pc` (R202, D1). -/
def Obligations.ALatchedFaultHoldsUntilReset : Prop :=
  ∀ (s : State) (f : Fault), s.fault = some f →
    step s = .fault f ∧ s.after .stepReq = s ∧
    (∀ ts : List Transaction, Transaction.rst ∉ ts →
      (s.afterAll ts).fault = some f ∧ SameRegs s (s.afterAll ts) ∧ (s.afterAll ts).i = s.i ∧
        (s.afterAll ts).pc = s.pc ∧ (s.afterAll ts).stack = s.stack ∧ (s.afterAll ts).fb = s.fb) ∧
    (s.after .rst).fault = none

/-- No instruction is refused, and no step: `exec` always answers a next state, and `step` a next state or the latched
fault. THE MODEL'S CHOICE OF FORM, log entry 1: the next state may be the one a fault leaves, the state before with the
latch set, where the spec's step returns Fault (RET on an empty stack, CALL at the limit, DRW out of range). Where each
instruction completes is what its own statement says. -/
def Obligations.EveryInstructionAndStepAnswers : Prop :=
  (∀ (i : Instr) (s : State), ∃ t, exec i s = .next t) ∧
  ∀ s : State, (∃ t, step s = .next t) ∨ ∃ f, s.fault = some f ∧ step s = .fault f

/-! ## Control flow (40_control_flow.md) -/

/-- R102. -/
def Obligations.JpJumpsToItsAddress : Prop :=
  ∀ (nnn : Addr12) (s : State), decode (0x1#4 ++ nnn) = some (.jp nnn) ∧
    ∃ t, exec (.jp nnn) s = .next t ∧ t.pc.toNat = nnn.toNat ∧ SameRegs s t ∧ SameButRegsPc s t

/-- R103, completing: the stack has room. The pushed value is the address of the next instruction. -/
def Obligations.CallPushesTheReturnAddress : Prop :=
  ∀ (nnn : Addr12) (s : State), decode (0x2#4 ++ nnn) = some (.call nnn) ∧
    (s.config.stackLimit ≠ some s.stack.length →
      ∃ t, exec (.call nnn) s = .next t ∧ t.stack = (s.pc + 2#16) :: s.stack ∧ t.pc.toNat = nnn.toNat ∧
        SameRegs s t ∧ t.i = s.i ∧ t.fb = s.fb ∧ t.rand = s.rand ∧ SameAlways s t)

/-- R103 under a full stack: `StackOverflow`, and nothing else changes (D6, D1). -/
def Obligations.CallOnAFullStackFaults : Prop :=
  ∀ (nnn : Addr12) (s : State), s.config.stackLimit = some s.stack.length →
    exec (.call nnn) s = .next { s with fault := some (.stackOverflow s.pc) }

/-- R101, both cases: the top entry goes to `pc`, or `StackUnderflow` and nothing else changes (log 1). -/
def Obligations.RetPopsTheReturnAddress : Prop :=
  decode 0x00EE#16 = some .ret ∧
  (∀ (s : State) (top : Word) (rest : List Word), s.stack = top :: rest →
    ∃ t, exec .ret s = .next t ∧ t.pc = top ∧ t.stack = rest ∧ SameRegs s t ∧ t.i = s.i ∧ t.fb = s.fb ∧
      t.rand = s.rand ∧ SameAlways s t) ∧
  ∀ s : State, s.stack = [] → exec .ret s = .next { s with fault := some (.stackUnderflow s.pc) }

/-- A call and the return at its target come back to the instruction after the call, with the stack as before
(R103, R101, the source's W8). -/
def Obligations.ReturnComesBackAfterTheCall : Prop :=
  ∀ (nnn : Addr12) (s t : State), s.config.stackLimit ≠ some s.stack.length → exec (.call nnn) s = .next t →
    ∃ u, exec .ret t = .next u ∧ u = { s with pc := s.pc + 2#16 }

/-- R104 and R105. -/
def Obligations.ImmediateSkipsCompareWithTheirByte : Prop :=
  ∀ (a : Reg) (kk : Byte) (s : State),
    decode (0x3#4 ++ a ++ kk) = some (.seImm a kk) ∧ decode (0x4#4 ++ a ++ kk) = some (.sneImm a kk) ∧
    (∃ t, exec (.seImm a kk) s = .next t ∧ t.pc = (if s.reg a = kk then s.pc + 4#16 else s.pc + 2#16) ∧
      SameRegs s t ∧ SameButRegsPc s t) ∧
    ∃ t, exec (.sneImm a kk) s = .next t ∧ t.pc = (if s.reg a ≠ kk then s.pc + 4#16 else s.pc + 2#16) ∧
      SameRegs s t ∧ SameButRegsPc s t

/-- R106 and R107, for every value of the ignored nibble (R77, D4). -/
def Obligations.RegisterSkipsCompareTwoRegisters : Prop :=
  ∀ (a b : Reg) (n : Nibble) (s : State),
    decode (0x5#4 ++ a ++ b ++ n) = some (.seReg a b n) ∧ decode (0x9#4 ++ a ++ b ++ n) = some (.sneReg a b n) ∧
    (∃ t, exec (.seReg a b n) s = .next t ∧ t.pc = (if s.reg a = s.reg b then s.pc + 4#16 else s.pc + 2#16) ∧
      SameRegs s t ∧ SameButRegsPc s t) ∧
    ∃ t, exec (.sneReg a b n) s = .next t ∧ t.pc = (if s.reg a ≠ s.reg b then s.pc + 4#16 else s.pc + 2#16) ∧
      SameRegs s t ∧ SameButRegsPc s t

/-- R108: always `x[0x0]`, and the sum is not masked (D7). -/
def Obligations.JpV0AddsRegisterZero : Prop :=
  ∀ (nnn : Addr12) (s : State), decode (0xB#4 ++ nnn) = some (.jpV0 nnn) ∧
    ∃ t, exec (.jpV0 nnn) s = .next t ∧ t.pc.toNat = (s.reg 0x0#4).toNat + nnn.toNat ∧ SameRegs s t ∧
      SameButRegsPc s t

/-- R237: the core does not stop at a self-jump; a good end steps to itself, for as long as the host steps it. -/
def Obligations.ASelfJumpStepsToItself : Prop :=
  ∀ s : State, s.goodEnd = true → step s = .next s ∧ ∀ n, s.afterSteps n = s

/-- R237, its three cases: a run under fuel ends at the first state that is a good or a bad end and says which, and it
reports neither only when no state within the fuel is an end (D15). -/
def Obligations.RunsEndAtTheirFirstEnd : Prop :=
  ∀ (fuel : Nat) (s t : State),
    (State.runToEnd fuel s = .good t →
      ∃ n, n ≤ fuel ∧ t = s.afterSteps n ∧ t.goodEnd = true ∧
        ∀ m, m < n → (s.afterSteps m).goodEnd = false ∧ (s.afterSteps m).badEnd = false) ∧
    (State.runToEnd fuel s = .bad t →
      ∃ n, n ≤ fuel ∧ t = s.afterSteps n ∧ t.badEnd = true ∧
        ∀ m, m < n → (s.afterSteps m).goodEnd = false ∧ (s.afterSteps m).badEnd = false) ∧
    (State.runToEnd fuel s = .outOfFuel t →
      t = s.afterSteps fuel ∧
        ∀ m, m ≤ fuel → (s.afterSteps m).goodEnd = false ∧ (s.afterSteps m).badEnd = false)

/-! ## Loads, ALU, index, random (41_alu.md) -/

/-- R130. -/
def Obligations.LdImmLoadsItsByte : Prop :=
  ∀ (a : Reg) (kk : Byte) (s : State), decode (0x6#4 ++ a ++ kk) = some (.ldImm a kk) ∧
    ∃ t, exec (.ldImm a kk) s = .next t ∧ t.reg a = kk ∧ t.pc = s.pc + 2#16 ∧ SameRegsBut [a] s t ∧
      SameButRegsPc s t

/-- R131: the sum modulo 256, and no flag: `VF` changes only as the destination. -/
def Obligations.AddImmAddsWithoutAFlag : Prop :=
  ∀ (a : Reg) (kk : Byte) (s : State), decode (0x7#4 ++ a ++ kk) = some (.addImm a kk) ∧
    ∃ t, exec (.addImm a kk) s = .next t ∧ (t.reg a).toNat = ((s.reg a).toNat + kk.toNat) % 256 ∧
      t.pc = s.pc + 2#16 ∧ SameRegsBut [a] s t ∧ SameButRegsPc s t

/-- R133, R134, R135 and R136: the copy and the three bitwise operations, with `VF` unchanged but as the
destination. -/
def Obligations.CopyAndLogicWriteTheirResult : Prop :=
  ∀ (a b : Reg) (s : State),
    decode (0x8#4 ++ a ++ b ++ 0x0#4) = some (.ldReg a b) ∧ decode (0x8#4 ++ a ++ b ++ 0x1#4) = some (.orReg a b) ∧
    decode (0x8#4 ++ a ++ b ++ 0x2#4) = some (.andReg a b) ∧ decode (0x8#4 ++ a ++ b ++ 0x3#4) = some (.xorReg a b) ∧
    (∃ t, exec (.ldReg a b) s = .next t ∧ t.reg a = s.reg b ∧ t.pc = s.pc + 2#16 ∧ SameRegsBut [a] s t ∧
      SameButRegsPc s t) ∧
    (∃ t, exec (.orReg a b) s = .next t ∧ t.reg a = s.reg a ||| s.reg b ∧ t.pc = s.pc + 2#16 ∧
      SameRegsBut [a] s t ∧ SameButRegsPc s t) ∧
    (∃ t, exec (.andReg a b) s = .next t ∧ t.reg a = s.reg a &&& s.reg b ∧ t.pc = s.pc + 2#16 ∧
      SameRegsBut [a] s t ∧ SameButRegsPc s t) ∧
    ∃ t, exec (.xorReg a b) s = .next t ∧ t.reg a = s.reg a ^^^ s.reg b ∧ t.pc = s.pc + 2#16 ∧
      SameRegsBut [a] s t ∧ SameButRegsPc s t

/-- R137: the sum modulo 256 and the carry; with `a = 0xF` the carry stays (R132, D3). -/
def Obligations.AddRegSetsTheCarry : Prop :=
  ∀ (a b : Reg) (s : State), decode (0x8#4 ++ a ++ b ++ 0x4#4) = some (.addReg a b) ∧
    ∃ t, exec (.addReg a b) s = .next t ∧
      (a ≠ VF → (t.reg a).toNat = ((s.reg a).toNat + (s.reg b).toNat) % 256) ∧
      (t.reg VF).toNat = ((s.reg a).toNat + (s.reg b).toNat) / 256 ∧
      t.pc = s.pc + 2#16 ∧ SameRegsBut [a, VF] s t ∧ SameButRegsPc s t

/-- R138 and R140: the difference modulo 256 and the no-borrow flag, which is 1 for equal operands; with `a = 0xF` the
flag stays (R132, D3). -/
def Obligations.SubtractsSetTheNoBorrow : Prop :=
  ∀ (a b : Reg) (s : State),
    decode (0x8#4 ++ a ++ b ++ 0x5#4) = some (.subReg a b) ∧ decode (0x8#4 ++ a ++ b ++ 0x7#4) = some (.subn a b) ∧
    (∃ t, exec (.subReg a b) s = .next t ∧
      (a ≠ VF → (t.reg a).toNat = ((s.reg a).toNat + 256 - (s.reg b).toNat) % 256) ∧
      t.reg VF = (if (s.reg b).toNat ≤ (s.reg a).toNat then 0x01#8 else 0x00#8) ∧
      t.pc = s.pc + 2#16 ∧ SameRegsBut [a, VF] s t ∧ SameButRegsPc s t) ∧
    ∃ t, exec (.subn a b) s = .next t ∧
      (a ≠ VF → (t.reg a).toNat = ((s.reg b).toNat + 256 - (s.reg a).toNat) % 256) ∧
      t.reg VF = (if (s.reg a).toNat ≤ (s.reg b).toNat then 0x01#8 else 0x00#8) ∧
      t.pc = s.pc + 2#16 ∧ SameRegsBut [a, VF] s t ∧ SameButRegsPc s t

/-- R139 and R141: `x[a]` shifted by one, whatever `b` is, and the bit shifted out; with `a = 0xF` the bit stays
(R132, D3). -/
def Obligations.ShiftsSetTheBitShiftedOut : Prop :=
  ∀ (a b : Reg) (s : State),
    decode (0x8#4 ++ a ++ b ++ 0x6#4) = some (.shr a b) ∧ decode (0x8#4 ++ a ++ b ++ 0xE#4) = some (.shl a b) ∧
    (∃ t, exec (.shr a b) s = .next t ∧ (a ≠ VF → (t.reg a).toNat = (s.reg a).toNat / 2) ∧
      (t.reg VF).toNat = (s.reg a).toNat % 2 ∧ t.pc = s.pc + 2#16 ∧ SameRegsBut [a, VF] s t ∧ SameButRegsPc s t) ∧
    ∃ t, exec (.shl a b) s = .next t ∧ (a ≠ VF → (t.reg a).toNat = 2 * (s.reg a).toNat % 256) ∧
      (t.reg VF).toNat = (s.reg a).toNat / 128 ∧ t.pc = s.pc + 2#16 ∧ SameRegsBut [a, VF] s t ∧ SameButRegsPc s t

/-- R142: `I` gets the zero-extended operand. -/
def Obligations.LdILoadsTheIndexRegister : Prop :=
  ∀ (nnn : Addr12) (s : State), decode (0xA#4 ++ nnn) = some (.ldI nnn) ∧
    ∃ t, exec (.ldI nnn) s = .next t ∧ t.i.toNat = nnn.toNat ∧ t.pc = s.pc + 2#16 ∧ SameRegs s t ∧
      t.stack = s.stack ∧ t.fb = s.fb ∧ t.rand = s.rand ∧ SameAlways s t

/-- R143: one fresh byte, whichever the host supplies, or the free value of this request; the bits outside the mask are
0; the byte is consumed. The port is the model's own (D13, log 3). -/
def Obligations.RndMasksOneFreshByte : Prop :=
  ∀ (a : Reg) (kk : Byte) (s : State), decode (0xC#4 ++ a ++ kk) = some (.rnd a kk) ∧
    ∃ t, exec (.rnd a kk) s = .next t ∧
      (∀ r rest, s.rand.pending = r :: rest → t.reg a = r &&& kk ∧ t.rand.pending = rest) ∧
      (s.rand.pending = [] → t.reg a = Config.freeRandByte s.rand.count &&& kk ∧ t.rand.pending = []) ∧
      t.rand.count = s.rand.count + 1 ∧ t.reg a &&& ~~~kk = 0x00#8 ∧
      t.pc = s.pc + 2#16 ∧ SameRegsBut [a] s t ∧ t.i = s.i ∧ t.stack = s.stack ∧ t.fb = s.fb ∧ SameAlways s t

/-- R143, "must be re-queried per instruction (not memoized)": two draws consume two bytes, in order (D13, log 3). -/
def Obligations.TwoDrawsConsumeTwoBytes : Prop :=
  ∀ (a b : Reg) (kk ll r q : Byte) (rest : List Byte) (s : State), a ≠ b → s.rand.pending = r :: q :: rest →
    ∃ t u, exec (.rnd a kk) s = .next t ∧ exec (.rnd b ll) t = .next u ∧ u.reg a = r &&& kk ∧ u.reg b = q &&& ll ∧
      u.rand.pending = rest

/-! ## The framebuffer (42_display.md) -/

/-- R170. -/
def Obligations.ClsClearsEveryPixel : Prop :=
  decode 0x00E0#16 = some .cls ∧
  ∀ s : State, ∃ t, exec .cls s = .next t ∧ (∀ px py, t.pixel px py = false) ∧
    t.pc = s.pc + 2#16 ∧ SameRegs s t ∧ t.i = s.i ∧ t.stack = s.stack ∧ t.rand = s.rand ∧ SameAlways s t

/-- R171, R172, R173 and R175, for every sprite in memory (the range check is D2): each pixel is XORed with the sprite,
coordinates wrapping; `VF` is 1 exactly when a lit pixel lies under a set sprite bit, which is R171's pseudocode because
no pixel is visited twice (R173's derived remark); `I` and memory do not change. -/
def Obligations.DrwXorsTheSpriteAndReportsCollision : Prop :=
  ∀ (a b : Reg) (n : Nibble) (s : State), decode (0xD#4 ++ a ++ b ++ n) = some (.drw a b n) ∧
    (SpriteInRange s n →
      ∃ t, exec (.drw a b n) s = .next t ∧
        (∀ px py, t.pixel px py = true ↔ (s.pixel px py = true ↔ ¬ UnderSprite s a b n px py)) ∧
        ((∃ px py, s.pixel px py = true ∧ UnderSprite s a b n px py) → t.reg VF = 0x01#8) ∧
        ((¬ ∃ px py, s.pixel px py = true ∧ UnderSprite s a b n px py) → t.reg VF = 0x00#8) ∧
        t.pc = s.pc + 2#16 ∧ SameRegsBut [VF] s t ∧ t.i = s.i ∧ t.stack = s.stack ∧ t.rand = s.rand ∧
        SameAlways s t)

/-- R174: a sprite with a byte outside memory faults with the first bad address, draws nothing and leaves `VF` (D2). -/
def Obligations.DrwOutOfRangeChangesNothing : Prop :=
  ∀ (a b : Reg) (n : Nibble) (k : Nat) (s : State), k < n.toNat → 4096 ≤ s.i.toNat + k →
    (∀ m, m < k → s.i.toNat + m < 4096) →
      exec (.drw a b n) s = .next { s with fault := some (.outOfRange s.pc (s.i.toNat + k)) }

/-- R176: height 0 draws nothing, reads no memory and sets `VF` to 0, whatever `I` is (D5). -/
def Obligations.DrwOfHeightZeroOnlyClearsTheFlag : Prop :=
  ∀ (a b : Reg) (s : State), ∃ t, exec (.drw a b 0#4) s = .next t ∧ t.reg VF = 0x00#8 ∧ t.pc = s.pc + 2#16 ∧
    SameRegsBut [VF] s t ∧ SameButRegsPc s t

/-- R171's corner case, as its pseudocode makes it: drawing the same sprite twice at the same place restores the
framebuffer, and the second draw sets `VF` to 1 exactly when a pixel under the sprite was unlit before the first.
(R171's own sentence says "if the sprite has any 1 bit", which its pseudocode gives only from an unlit pixel; log
entry 12.) -/
def Obligations.DrawingTwiceRestoresTheFramebuffer : Prop :=
  ∀ (a b : Reg) (n : Nibble) (s t u : State), a ≠ VF → b ≠ VF → SpriteInRange s n →
    exec (.drw a b n) s = .next t → exec (.drw a b n) t = .next u →
      u.fb = s.fb ∧
      ((∃ px py, UnderSprite s a b n px py ∧ s.pixel px py = false) → u.reg VF = 0x01#8) ∧
      ((∀ px py, UnderSprite s a b n px py → s.pixel px py = true) → u.reg VF = 0x00#8)

/-! ## Rules over all instructions -/

/-- The readers and writers of the general registers (R22): an instruction changes no register outside its write
list, and nothing it does depends on the value of a register outside its read list. Such a register itself keeps the
value it was given, or, where the instruction writes it and completes, gets the same result whatever that value was. -/
def Obligations.InstructionsReadAndWriteOnlyTheirRegisters : Prop :=
  ∀ (i : Instr) (s t : State), exec i s = .next t →
    SameRegsBut (writesRegs i) s t ∧
    ∀ (r : Reg) (v : Byte), r ∉ readsRegs i →
      ∃ t', exec i (s.setReg r v) = .next t' ∧ (∀ q, q ≠ r → t'.reg q = t.reg q) ∧
        (r ∉ writesRegs i → t'.reg r = v) ∧
        (r ∈ writesRegs i → t.fault = none → t'.reg r = t.reg r) ∧ t'.pc = t.pc ∧ SameButRegsPc t t'

/-- Who changes what else: `I` only Annn (R23), the call stack only 2nnn and 00EE (R26, R100), the framebuffer only
00E0 and Dabn (R28), the random port only Cakk (R143); no instruction writes memory (R52) or a timer (R27). -/
def Obligations.OnlyTheNamedInstructionsChangeEachField : Prop :=
  ∀ (i : Instr) (s t : State), exec i s = .next t →
    (t.i = s.i ∨ ∃ nnn, i = .ldI nnn) ∧
    (t.stack = s.stack ∨ i = .ret ∨ ∃ nnn, i = .call nnn) ∧
    (t.fb = s.fb ∨ i = .cls ∨ ∃ a b n, i = .drw a b n) ∧
    (t.rand = s.rand ∨ ∃ a kk, i = .rnd a kk) ∧
    t.dt = s.dt ∧ t.st = s.st ∧ t.config = s.config ∧ SameMemory s t

/-- After an instruction that sets the flag and completes, `VF` is 0 or 1 (R25, R144, R173, R235). -/
def Obligations.FlagSettersLeaveZeroOrOne : Prop :=
  ∀ (i : Instr) (s t : State),
    (∃ a b n, i = .addReg a b ∨ i = .subReg a b ∨ i = .shr a b ∨ i = .subn a b ∨ i = .shl a b ∨ i = .drw a b n) →
    s.fault = none → exec i s = .next t → t.fault = none → t.reg VF = 0x00#8 ∨ t.reg VF = 0x01#8

/-- A program cannot observe the timers (R207, R27, R236): changing them changes nothing of a step but themselves. -/
def Obligations.StepsDoNotObserveTheTimers : Prop :=
  ∀ (s : State) (d e : Byte),
    (∀ t, step s = .next t → step (s.withTimers d e) = .next (t.withTimers d e)) ∧
    (∀ f, step s = .fault f → step (s.withTimers d e) = .fault f)

/-! ## The host interface (20_memory.md, 60_exceptions.md R210) -/

/-- R62: a load that fits copies the image and changes only the addressed bytes; one that does not fit is refused and
changes nothing (D9, D19). -/
def Obligations.LoadCopiesTheImageOrIsRefused : Prop :=
  ∀ (s : State) (org : Nat) (img : List Byte), s.mem.wf →
    (org + img.length ≤ 4096 →
      s.reply (.load org img) = .done ∧
      (∀ k (h : k < img.length), (s.after (.load org img)).byteAt (org + k) = img[k]) ∧
      (∀ addr, addr < org ∨ org + img.length ≤ addr → (s.after (.load org img)).byteAt addr = s.byteAt addr) ∧
      s.after (.load org img) = { s with mem := (s.after (.load org img)).mem }) ∧
    (4096 < org + img.length → s.reply (.load org img) = .refused ∧ s.after (.load org img) = s)

/-- R60: a host load is seen by the next fetch: after loading an instruction at `pc`, the step runs it. -/
def Obligations.ALoadIsSeenByTheNextFetch : Prop :=
  ∀ (s : State) (i : Instr), s.mem.wf → s.fault = none → s.pc.toNat + 2 ≤ 4096 →
    step (s.load s.pc.toNat (encode i)) = exec i (s.load s.pc.toNat (encode i))

/-- R63: the memory view returns the byte and has no effect. -/
def Obligations.MemoryViewReadsWithoutEffect : Prop :=
  ∀ (s : State) (addr : Addr12),
    s.reply (.memRd addr) = .byte (s.byteAt addr.toNat) ∧ s.after (.memRd addr) = s

/-- R29: byte `k` of the packed view holds pixels `8k` to `8k + 7`, the first in bit 7 (D10); a read has no effect; the
dimensions read as 64 and 32 (R177). -/
def Obligations.FramebufferViewIsPackedMsbFirst : Prop :=
  ∀ (s : State) (k : BitVec 8),
    (∃ v : Byte, s.reply (.fbRd k) = .byte v ∧
      ∀ (j : Nat) (px : Col) (py : Row), j < 8 → py.val * 64 + px.val = 8 * k.toNat + j →
        v.getLsbD (7 - j) = s.pixel px py) ∧
    s.after (.fbRd k) = s ∧ s.reply .fbWidthRd = .dimension 64 ∧ s.reply .fbHeightRd = .dimension 32

/-- R29's consequence: a sprite byte drawn at a column that is a multiple of 8 onto a clear row reads back as itself
(D10). -/
def Obligations.AlignedSpriteByteReadsBackAsItself : Prop :=
  ∀ (a b : Reg) (s t : State) (k : BitVec 8), s.i.toNat < 4096 → (s.reg a).toNat % 8 = 0 →
    (∀ px py, py.val = (s.reg b).toNat % 32 → s.pixel px py = false) →
    k.toNat = (s.reg b).toNat % 32 * 8 + (s.reg a).toNat % 64 / 8 → exec (.drw a b 1#4) s = .next t →
      t.reply (.fbRd k) = .byte (s.byteAt s.i.toNat)

/-- R210: the host reads and replaces either timer (D14), and has no way to write the registers, `I`, `pc`, the stack,
the framebuffer or the latch but by reset and step. No transaction at all changes the parameter STACK_LIMIT (R20; its
place in the state is log entry 2). -/
def Obligations.HostWritesOnlyTimersMemoryAndRandomBytes : Prop :=
  ∀ (s : State) (d : Byte) (tr : Transaction),
    (s.after (.dtWr d)).reply .dtRd = .byte d ∧ (s.after (.stWr d)).reply .stRd = .byte d ∧
    (s.after (.dtWr d)).st = s.st ∧ (s.after (.stWr d)).dt = s.dt ∧
    (s.after tr).config = s.config ∧
    (tr ≠ .rst → tr ≠ .stepReq →
      SameRegs s (s.after tr) ∧ (s.after tr).i = s.i ∧ (s.after tr).pc = s.pc ∧ (s.after tr).stack = s.stack ∧
        (s.after tr).fb = s.fb ∧ (s.after tr).fault = s.fault)

/-- R230: the reset transaction gives every field of the core its reset value, from any state (D18); the parameter and
the random port stay (log 4). -/
def Obligations.RstRepeatsCreation : Prop :=
  ∀ s t : State, t = s.after .rst →
    (∀ addr, t.byteAt addr = 0x00#8) ∧ (∀ r, t.reg r = 0x00#8) ∧ t.i = 0x0000#16 ∧ t.pc = 0x0200#16 ∧
      t.stack = [] ∧ t.dt = 0x00#8 ∧ t.st = 0x00#8 ∧ (∀ px py, t.pixel px py = false) ∧ t.fault = none ∧
      t.config = s.config ∧ t.rand = s.rand

/-- The host's word placement (log 6): a valid word placed in any state with canonical memory is what the next step
runs. -/
def Obligations.APlacedWordIsTheNextInstruction : Prop :=
  ∀ (s : State) (w : Nat) (i : Instr), s.mem.wf → decodeTableWord 16 w = some i →
    step (s.withFetchWord 16 w) = exec i (s.withFetchWord 16 w)

/-! ## The assembler (30_encoding.md R80) -/

/-- A line assembles exactly when its operands have a listed shape and lie in range (R80, R81). The disassembler prints
every valid word, and what it prints assembles, at any origin, to the two bytes of that word's instruction, with the
nibble N of 5abN and 9abN as 0; the same holds of the line with its operands as numbers (R80, D11; the digits and the
white space of the text are log entry 9). -/
def Obligations.AssemblyAgreesWithDisassembly : Prop :=
  (∀ l : AsmInstr, (instrOfLine l).isSome = l.wellFormed) ∧
  (∀ i : Instr, instrOfLine (lineOfInstr i) = some (assembled i)) ∧
  (∀ (org : Nat) (i : Instr), assemble org (instrText i) = some (encode (assembled i))) ∧
  ∀ (org : Nat) (w : Word) (i : Instr), decode w = some i →
    ∃ line, disassemble w = some line ∧ assemble org line = some (encode (assembled i))

/-! ## The whole state (10_state.md R20) -/

/-- The core's state is the record of R20 and nothing else persists: what a step does to the record is a function of
the record, of the parameter and of the one random byte supplied to this step (R74: `step` "takes no external input
beyond the current Machine State", but for that byte); and no step changes the parameter (R20, R8). That the parameter
and the bytes stand in `State` beside the record is the model's own (log entries 2 and 3). -/
def Obligations.NothingButTheCoreStatePersists : Prop :=
  ∀ s t : State, s.toCoreState = t.toCoreState → s.config = t.config → s.randIn = t.randIn →
    (∀ s', step s = .next s' → s'.config = s.config ∧
      ∃ t', step t = .next t' ∧ t'.toCoreState = s'.toCoreState ∧ t'.config = s'.config) ∧
    ∀ f, step s = .fault f → step t = .fault f
end

