-- ==== Sys2Proof/Laws/Assembler.lean ====
section
/-! SUPPORT. What the assembler's parser answers on the text a disassembler prints: the pieces of a line, the digits of
a number, and a whole line (30_encoding.md R80). -/

namespace Sys2Proof.Machine

/-! ## White space and separators -/

/-- A piece of a line with nothing in it that ends or separates pieces. -/
def CleanPiece (p : List Char) : Prop :=
  p ≠ [] ∧ ∀ c ∈ p, isBlank c = false ∧ c ≠ ',' ∧ c ≠ ';' ∧ c ≠ ':' ∧ c ≠ '\n'

theorem dropWhile_blank_eq {l : List Char} {a : Char} (h : l.head? = some a) (ha : isBlank a = false) :
    l.dropWhile isBlank = l := by
  cases l with
  | nil => rfl
  | cons c cs =>
    have : c = a := by simpa using h
    subst this
    simp [ha]

/-- Text that neither begins nor ends with white space is not trimmed. -/
theorem trimText_eq {l : List Char} {a b : Char} (hh : l.head? = some a) (ha : isBlank a = false)
    (hl : l.getLast? = some b) (hb : isBlank b = false) : trimText l = l := by
  have hr : l.reverse.head? = some b := by simpa using hl
  rw [trimText, dropWhile_blank_eq hh ha, dropWhile_blank_eq hr hb, List.reverse_reverse]

theorem trimText_blank (l : List Char) : trimText (' ' :: l) = trimText l := by
  simp [trimText, isBlank]

theorem CleanPiece.head {p : List Char} (h : CleanPiece p) (l : List Char) :
    ∃ a, (p ++ l).head? = some a ∧ isBlank a = false := by
  obtain ⟨hne, hall⟩ := h
  cases p with
  | nil => exact absurd rfl hne
  | cons c cs => exact ⟨c, rfl, (hall c (by simp)).1⟩

theorem CleanPiece.last {p : List Char} (h : CleanPiece p) : ∃ b, p.getLast? = some b ∧ isBlank b = false := by
  obtain ⟨hne, hall⟩ := h
  exact ⟨p.getLast hne, List.getLast?_eq_some_getLast hne, (hall _ (List.getLast_mem hne)).1⟩

theorem CleanPiece.trim {p : List Char} (h : CleanPiece p) : trimText p = p := by
  obtain ⟨a, ha, hab⟩ := h.head []
  obtain ⟨b, hb, hbb⟩ := h.last
  exact trimText_eq (by simpa using ha) hab hb hbb

theorem splitText_eq_singleton {sep : Char} {l : List Char} (h : sep ∉ l) : splitText sep l = [l] := by
  induction l with
  | nil => rfl
  | cons c cs ih =>
    simp only [List.mem_cons, not_or] at h
    simp [splitText, Ne.symm h.1, ih h.2]

theorem splitText_append {sep : Char} {p : List Char} (h : sep ∉ p) (l : List Char) :
    splitText sep (p ++ sep :: l) = p :: splitText sep l := by
  induction p with
  | nil => simp [splitText]
  | cons c cs ih =>
    simp only [List.mem_cons, not_or] at h
    simp [splitText, Ne.symm h.1, ih h.2]

/-! ## The operands of a line -/

/-- The text of the operands after the first. -/
def moreOperands (ps : List (List Char)) : List Char := (ps.map (fun q => [',', ' '] ++ q)).flatten

theorem moreOperands_cons (q : List Char) (qs : List (List Char)) :
    moreOperands (q :: qs) = ',' :: ' ' :: (q ++ moreOperands qs) := by
  simp [moreOperands]

theorem operands_last {p : List Char} {ps : List (List Char)} (hp : CleanPiece p) (hps : ∀ q ∈ ps, CleanPiece q) :
    ∃ b, (p ++ moreOperands ps).getLast? = some b ∧ isBlank b = false := by
  induction ps generalizing p with
  | nil => simpa [moreOperands] using hp.last
  | cons q qs ih =>
    obtain ⟨b, hb, hbb⟩ := ih (hps q (by simp)) (fun r hr => hps r (by simp [hr]))
    refine ⟨b, ?_, hbb⟩
    have : p ++ moreOperands (q :: qs) = (p ++ [',', ' ']) ++ (q ++ moreOperands qs) := by
      simp [moreOperands_cons]
    rw [this, List.getLast?_append, hb]
    rfl

theorem splitText_operands {p : List Char} {ps : List (List Char)} (hp : CleanPiece p) (hps : ∀ q ∈ ps, CleanPiece q) :
    (splitText ',' (p ++ moreOperands ps)).map trimText = p :: ps := by
  have comma : ∀ {q}, CleanPiece q → ',' ∉ q := fun hq hm => (hq.2 _ hm).2.1 rfl
  induction ps generalizing p with
  | nil => simp [moreOperands, splitText_eq_singleton (comma hp), hp.trim]
  | cons q qs ih =>
    have hq := hps q (by simp)
    have hsp : splitText ',' (' ' :: (q ++ moreOperands qs)) =
        match splitText ',' (q ++ moreOperands qs) with
        | [] => [[' ']]
        | w :: ws => (' ' :: w) :: ws := if_neg (by decide)
    have ih := ih hq (fun r hr => hps r (by simp [hr]))
    rw [moreOperands_cons, splitText_append (comma hp), hsp]
    cases h : splitText ',' (q ++ moreOperands qs) with
    | nil => simp [h] at ih
    | cons w ws =>
      rw [h] at ih
      simpa [hp.trim, trimText_blank] using ih

theorem parseOperands_eq {p : List Char} {ps : List (List Char)} (hp : CleanPiece p) (hps : ∀ q ∈ ps, CleanPiece q) :
    parseOperands (p ++ moreOperands ps) = (p :: ps).mapM parseOperand := by
  have hne : p ++ moreOperands ps ≠ [] := by simp [hp.1]
  rw [parseOperands, if_neg hne, ← splitText_operands hp hps, List.mapM_map]
  rfl

/-! ## Digits and operands -/

/-- What the parser needs of a printed digit: its value, and that it ends no piece. -/
theorem hexDigit_spec {n : Nat} (h : n < 16) :
    hexValue (hexDigit n) = some n ∧ isBlank (hexDigit n) = false ∧ hexDigit n ≠ ',' ∧ hexDigit n ≠ ';' ∧
      hexDigit n ≠ ':' ∧ hexDigit n ≠ '\n' := by
  have all : ∀ n, n < 16 → hexValue (hexDigit n) = some n ∧ isBlank (hexDigit n) = false ∧ hexDigit n ≠ ',' ∧
      hexDigit n ≠ ';' ∧ hexDigit n ≠ ':' ∧ hexDigit n ≠ '\n' := by decide
  exact all n h

theorem digitsValue_append (base acc : Nat) (l r : List Char) :
    digitsValue base acc (l ++ r) = (digitsValue base acc l).bind (fun v => digitsValue base v r) := by
  induction l generalizing acc with
  | nil => rfl
  | cons c cs ih =>
    simp only [List.cons_append, digitsValue]
    split
    · split
      · exact ih _
      · rfl
    · rfl

/-- Reading back the digits of a number (R80). -/
theorem digitsValue_hexDigits (width v : Nat) : digitsValue 16 0 (hexDigits width v) = some (v % 16 ^ width) := by
  induction width generalizing v with
  | zero => simp [hexDigits, digitsValue, Nat.mod_one]
  | succ width ih =>
    have hlt : v % 16 < 16 := Nat.mod_lt _ (by decide)
    rw [hexDigits, digitsValue_append, ih]
    simp only [Option.bind_some, digitsValue, (hexDigit_spec hlt).1, hlt, if_true, Option.some.injEq]
    rw [Nat.pow_succ, Nat.mul_comm (16 ^ width), Nat.mod_mul, Nat.add_comm, Nat.mul_comm]

theorem hexDigits_ne_nil (width v : Nat) : hexDigits (width + 1) v ≠ [] := by simp [hexDigits]

theorem hexDigits_clean {width v : Nat} :
    ∀ c ∈ hexDigits width v, isBlank c = false ∧ c ≠ ',' ∧ c ≠ ';' ∧ c ≠ ':' ∧ c ≠ '\n' := by
  induction width generalizing v with
  | zero => simp [hexDigits]
  | succ width ih =>
    intro c hc
    rcases List.mem_append.1 hc with hc | hc
    · exact ih c hc
    · rw [List.mem_singleton.1 hc]
      exact (hexDigit_spec (Nat.mod_lt _ (by decide))).2

theorem hexText_clean (width v : Nat) : CleanPiece (hexText width v) := by
  refine ⟨by simp [hexText], fun c hc => ?_⟩
  simp only [hexText, List.mem_cons] at hc
  rcases hc with rfl | rfl | hc
  · decide
  · decide
  · exact hexDigits_clean c hc

theorem regText_clean (r : Reg) : CleanPiece (regText r) := by
  refine ⟨by simp [regText], fun c hc => ?_⟩
  simp only [regText, List.mem_cons, List.not_mem_nil, or_false] at hc
  rcases hc with rfl | rfl
  · decide
  · exact (hexDigit_spec r.isLt).2

theorem index_clean : CleanPiece ['I'] := by
  refine ⟨by simp, fun c hc => ?_⟩
  rw [List.mem_singleton.1 hc]
  decide

/-- A printed number is read as that number (R80). -/
theorem parseOperand_hexText {width v : Nat} (h : v < 16 ^ (width + 1)) :
    parseOperand (hexText (width + 1) v) = some (.val (.num v)) := by
  have hd := digitsValue_hexDigits (width + 1) v
  rw [Nat.mod_eq_of_lt h] at hd
  cases hl : hexDigits (width + 1) v with
  | nil => exact absurd hl (hexDigits_ne_nil width v)
  | cons c cs =>
    rw [hl] at hd
    simp [hexText, hl, parseOperand, parseNumber, hd, Char.isDigit]

/-- A printed register is read as that register (R80). -/
theorem parseOperand_regText (r : Reg) : parseOperand (regText r) = some (.val (.reg r.toNat)) := by
  simp [regText, parseOperand, (hexDigit_spec r.isLt).1]

theorem parseOperand_index : parseOperand ['I'] = some (.val .index) := rfl

/-! ## A line -/

theorem mnemonicText_clean (m : Mnemonic) : CleanPiece (mnemonicText m) := by
  have all : (mnemonicText m).all (fun c => !isBlank c && c != ',' && c != ';' && c != ':' && c != '\n') = true := by
    cases m <;> rfl
  refine ⟨by cases m <;> decide, fun c hc => ?_⟩
  have := List.all_eq_true.1 all c hc
  simp only [Bool.and_eq_true, Bool.not_eq_true', bne_iff_ne] at this
  exact ⟨this.1.1.1.1, this.1.1.1.2, this.1.1.2, this.1.2, this.2⟩

/-- A mnemonic's text names it, and is not the directive DB. -/
theorem mnemonicText_find (m : Mnemonic) :
    (mnemonicText m).map Char.toUpper ≠ ['D', 'B'] ∧
      (mnemonicNames.find? (fun e => e.2 = (mnemonicText m).map Char.toUpper)).map Prod.fst = some m := by
  cases m <;> exact ⟨by decide, rfl⟩

theorem takeWhile_mnemonic (m : Mnemonic) (l : List Char) :
    (mnemonicText m ++ ' ' :: l).takeWhile (fun c => !isBlank c) = mnemonicText m ∧
      (mnemonicText m ++ ' ' :: l).dropWhile (fun c => !isBlank c) = ' ' :: l ∧
      (mnemonicText m).takeWhile (fun c => !isBlank c) = mnemonicText m ∧
      (mnemonicText m).dropWhile (fun c => !isBlank c) = [] := by
  cases m <;> exact ⟨rfl, rfl, rfl, rfl⟩

/-- The printed text of a mnemonic and its operands is read as that mnemonic with those operands (R80). -/
theorem parseStatement_lineText {m : Mnemonic} {ps : List (List Char)} {args : List AsmToken}
    (hps : ∀ q ∈ ps, CleanPiece q) (hargs : ps.mapM parseOperand = some args) :
    parseStatement (lineText m ps) = some (.instr m args) := by
  obtain ⟨hdb, hfind⟩ := mnemonicText_find m
  obtain ⟨e, he, hem⟩ := Option.map_eq_some_iff.1 hfind
  cases ps with
  | nil =>
    obtain ⟨-, -, ht, hd⟩ := takeWhile_mnemonic m []
    have : args = [] := by simpa using hargs.symm
    subst this
    simp [parseStatement, lineText, ht, hd, trimText, parseOperands, hdb, he, hem]
  | cons p ps =>
    have hp := hps p (by simp)
    have hq : ∀ q ∈ ps, CleanPiece q := fun q h => hps q (by simp [h])
    have hline : lineText m (p :: ps) = mnemonicText m ++ ' ' :: (p ++ moreOperands ps) := by
      simp [lineText, moreOperands]
    obtain ⟨ht, hd, -, -⟩ := takeWhile_mnemonic m (p ++ moreOperands ps)
    obtain ⟨a, ha, hab⟩ := hp.head (moreOperands ps)
    obtain ⟨b, hb, hbb⟩ := operands_last hp hq
    rw [hline]
    simp only [parseStatement, ht, hd, trimText_blank, trimText_eq ha hab hb hbb, parseOperands_eq hp hq, hargs,
      if_neg hdb, he, Option.map_some, hem]

theorem lineText_chars {m : Mnemonic} {ps : List (List Char)} (hps : ∀ q ∈ ps, CleanPiece q) :
    ∀ c ∈ lineText m ps, c ≠ ';' ∧ c ≠ ':' ∧ c ≠ '\n' := by
  have piece : ∀ {q}, CleanPiece q → ∀ c ∈ q, c ≠ ';' ∧ c ≠ ':' ∧ c ≠ '\n' := fun hq c hc => (hq.2 c hc).2.2
  intro c hc
  cases ps with
  | nil => exact piece (mnemonicText_clean m) c hc
  | cons p ps =>
    simp only [lineText, List.mem_append, List.mem_singleton, List.mem_flatten, List.mem_map] at hc
    rcases hc with ((hc | rfl) | hc) | ⟨_, ⟨q, hq, rfl⟩, hc⟩
    · exact piece (mnemonicText_clean m) c hc
    · decide
    · exact piece (hps p (by simp)) c hc
    · simp only [List.cons_append, List.nil_append, List.mem_cons] at hc
      rcases hc with rfl | rfl | hc
      · decide
      · decide
      · exact piece (hps q (by simp [hq])) c hc

theorem trimText_lineText {m : Mnemonic} {ps : List (List Char)} (hps : ∀ q ∈ ps, CleanPiece q) :
    trimText (lineText m ps) = lineText m ps := by
  cases ps with
  | nil => exact (mnemonicText_clean m).trim
  | cons p ps =>
    have hline : lineText m (p :: ps) = (mnemonicText m ++ [' ']) ++ (p ++ moreOperands ps) := by
      simp [lineText, moreOperands]
    obtain ⟨b, hb, hbb⟩ := operands_last (hps p (by simp)) (fun q (h : q ∈ ps) => hps q (by simp [h]))
    obtain ⟨a, ha, hab⟩ := (mnemonicText_clean m).head ([' '] ++ (p ++ moreOperands ps))
    refine trimText_eq (a := a) (b := b) ?_ hab ?_ hbb
    · rw [hline, List.append_assoc]
      exact ha
    · rw [hline, List.getLast?_append, hb]
      rfl

/-- A printed line, alone in a source text, is one instruction without labels (R80). -/
theorem parseSource_lineText {m : Mnemonic} {ps : List (List Char)} {args : List AsmToken}
    (hps : ∀ q ∈ ps, CleanPiece q) (hargs : ps.mapM parseOperand = some args) :
    parseSource (lineText m ps) = some [.instr m args] := by
  have hc := lineText_chars (m := m) hps
  have hnl : '\n' ∉ lineText m ps := fun h => (hc _ h).2.2 rfl
  have hco : ':' ∉ lineText m ps := fun h => (hc _ h).2.1 rfl
  have hne : lineText m ps ≠ [] := by
    cases ps <;> simp [lineText, (mnemonicText_clean m).1]
  have htw : (lineText m ps).takeWhile (· ≠ ';') = lineText m ps :=
    List.takeWhile_eq_self_iff.2 (fun c h => by simpa using (hc c h).1)
  have hline : parseLine (lineText m ps) = some [.instr m args] := by
    simp only [parseLine, htw, trimText_lineText hps, if_neg hne, if_neg hco, parseStatement_lineText hps hargs,
      Option.map_some]
  simp [parseSource, splitText_eq_singleton hnl, hline]

/-- Operands that are no labels stand for themselves. -/
theorem resolveToken_values (labels : List (List Char × Nat)) (allowed : Bool) (vs : List AsmOperand) :
    (vs.map AsmToken.val).mapM (resolveToken labels allowed) = some vs := by
  induction vs with
  | nil => rfl
  | cons v vs ih => simp [List.mapM_cons, resolveToken, ih]

/-- Assembling a printed line whose operands are `vs`: the bytes of the instruction of that line (R80). -/
theorem assemble_lineText {m : Mnemonic} {ps : List (List Char)} {vs : List AsmOperand} {i : Instr} (org : Nat)
    (hps : ∀ q ∈ ps, CleanPiece q) (hargs : ps.mapM parseOperand = some (vs.map .val))
    (hi : instrOfLine ⟨m, vs⟩ = some i) : assemble org (lineText m ps) = some (encode i) := by
  simp only [assemble, parseSource_lineText hps hargs, labelTable, itemBytes, List.mapM_cons, List.mapM_nil,
    resolveToken_values, hi]
  simp

end Sys2Proof.Machine
end

