-- ==== Sys2Proof/Laws/Memory.lean ====
section
/-! SUPPORT. The basic laws of memory: a read after a write, and that every memory operation keeps the canonical
form. -/

namespace Sys2Proof.Machine

theorem Memory.read_of_lt {m : Memory} {addr : Nat} (h : ∀ c ∈ m, addr < c.1) : m.read addr = Memory.background := by
  cases m with
  | nil => rfl
  | cons c m =>
    have hc := h c (by simp)
    have ih := Memory.read_of_lt (m := m) (addr := addr) (fun d hd => h d (by simp [hd]))
    simp [Memory.read, show c.1 ≠ addr by omega, ih]

theorem Memory.wf_tail {c : Host.Cell} {m : Memory} (h : Memory.wf (c :: m)) : Memory.wf m :=
  ⟨(List.pairwise_cons.1 h.1).2, fun d hd => h.2 d (by simp [hd])⟩

theorem Memory.wf_head {c : Host.Cell} {m : Memory} (h : Memory.wf (c :: m)) : ∀ d ∈ m, c.1 < d.1 :=
  (List.pairwise_cons.1 h.1).1

theorem Memory.wf_cons {c : Host.Cell} {m : Memory} (hm : Memory.wf m) (hlt : ∀ d ∈ m, c.1 < d.1)
    (ha : c.1 < memSize) (hv : c.2 ≠ Memory.background) : Memory.wf (c :: m) := by
  refine ⟨List.pairwise_cons.2 ⟨hlt, hm.1⟩, ?_⟩
  intro d hd
  rcases List.mem_cons.1 hd with rfl | hd
  · exact ⟨ha, hv⟩
  · exact hm.2 d hd

/-- The addresses listed after a write: the one written, and those listed before. -/
theorem Memory.mem_write {m : Memory} {addr : Nat} {v : Byte} {d : Host.Cell} (h : d ∈ m.write addr v) :
    d = (addr, v) ∧ v ≠ Memory.background ∨ d ∈ m := by
  induction m with
  | nil =>
    simp only [Memory.write] at h
    split at h <;> simp_all
  | cons c m ih =>
    simp only [Memory.write] at h
    split at h
    · rcases List.mem_cons.1 h with h | h
      · exact .inr (by simp [h])
      · rcases ih h with h | h
        · exact .inl h
        · exact .inr (by simp [h])
    · split at h <;> (split at h <;> (simp_all; try tauto))

/-- A write at an address of memory keeps the canonical form. -/
theorem Memory.wf_write {m : Memory} (hm : Memory.wf m) {addr : Nat} (ha : addr < memSize) (v : Byte) :
    Memory.wf (m.write addr v) := by
  induction m with
  | nil =>
    simp only [Memory.write]
    split
    · exact hm
    · exact Memory.wf_cons hm (by simp) ha ‹_›
  | cons c m ih =>
    have htail := Memory.wf_tail hm
    have hhead := Memory.wf_head hm
    have hc := hm.2 c (by simp)
    simp only [Memory.write]
    split
    · refine Memory.wf_cons (ih htail) ?_ hc.1 hc.2
      intro d hd
      rcases Memory.mem_write hd with h | h
      · simpa [h.1] using ‹c.1 < addr›
      · exact hhead d h
    · split
      · split
        · exact htail
        · refine Memory.wf_cons htail ?_ ha ‹_›
          intro d hd
          have := hhead d hd
          simp only
          omega
      · split
        · exact hm
        · refine Memory.wf_cons hm ?_ ha ‹_›
          intro d hd
          rcases List.mem_cons.1 hd with rfl | hd
          · simp only
            omega
          · have := hhead d hd
            simp only
            omega

/-- A read after a write: the byte written at its address, and every other byte as before. -/
theorem Memory.read_write {m : Memory} (hm : Memory.wf m) (addr : Nat) (v : Byte) (k : Nat) :
    (m.write addr v).read k = if k = addr then v else m.read k := by
  induction m with
  | nil =>
    simp only [Memory.write]
    by_cases hv : v = Memory.background
    · simp [hv, Memory.read]
    · simp only [hv, if_false, Memory.read]
      by_cases hk : addr = k
      · simp [hk]
      · simp [hk, show k ≠ addr from fun e => hk e.symm]
  | cons c m ih =>
    have ih := ih (Memory.wf_tail hm)
    have hhead := Memory.wf_head hm
    have hbelow : ∀ a, a ≤ c.1 → Memory.read m a = Memory.background := fun a ha =>
      Memory.read_of_lt fun d hd => Nat.lt_of_le_of_lt ha (hhead d hd)
    simp only [Memory.write]
    split
    · simp only [Memory.read, ih]
      split <;> split <;> first | rfl | omega
    · split
      · have hb := hbelow addr (by omega)
        have hc : c.1 = addr := ‹_›
        by_cases hk : k = addr
        · subst hk
          split
          · simp [*]
          · simp [Memory.read]
        · have hk' : ¬ addr = k := fun e => hk e.symm
          have hck : ¬ c.1 = k := by omega
          split <;> simp [Memory.read, hk', hck]
      · have hb := hbelow addr (by omega)
        by_cases hk : k = addr
        · subst hk
          have hck : ¬ c.1 = k := ‹_›
          split
          · have hv : v = Memory.background := ‹_›
            rw [Memory.read, if_neg hck, hb, if_pos rfl, hv]
          · simp [Memory.read]
        · have hk' : ¬ addr = k := fun e => hk e.symm
          split <;> simp [Memory.read, hk']

/-- A run of writes inside memory keeps the canonical form. -/
theorem Memory.wf_writeRun {m : Memory} (hm : Memory.wf m) {org : Nat} {vs : List Byte}
    (h : org + vs.length ≤ memSize) : Memory.wf (m.writeRun org vs) := by
  induction vs generalizing m org with
  | nil => exact hm
  | cons v vs ih =>
    simp only [List.length_cons] at h
    exact ih (Memory.wf_write hm (by omega) v) (by omega)

end Sys2Proof.Machine
end

