-- ==== Sys2Proof/Laws/State.lean ====
section
/-! SUPPORT. One lemma per field per update of the state, true by rfl, and the read of a register after each update. -/

namespace Sys2Proof.Machine

variable (s : State)

/-! ## `State.setReg` -/

@[simp] theorem State.setReg_mem (r : Reg) (v : Byte) : (s.setReg r v).mem = s.mem := rfl
@[simp] theorem State.setReg_i (r : Reg) (v : Byte) : (s.setReg r v).i = s.i := rfl
@[simp] theorem State.setReg_pc (r : Reg) (v : Byte) : (s.setReg r v).pc = s.pc := rfl
@[simp] theorem State.setReg_stack (r : Reg) (v : Byte) : (s.setReg r v).stack = s.stack := rfl
@[simp] theorem State.setReg_dt (r : Reg) (v : Byte) : (s.setReg r v).dt = s.dt := rfl
@[simp] theorem State.setReg_st (r : Reg) (v : Byte) : (s.setReg r v).st = s.st := rfl
@[simp] theorem State.setReg_fb (r : Reg) (v : Byte) : (s.setReg r v).fb = s.fb := rfl
@[simp] theorem State.setReg_fault (r : Reg) (v : Byte) : (s.setReg r v).fault = s.fault := rfl
@[simp] theorem State.setReg_config (r : Reg) (v : Byte) : (s.setReg r v).config = s.config := rfl
@[simp] theorem State.setReg_rand (r : Reg) (v : Byte) : (s.setReg r v).rand = s.rand := rfl
@[simp] theorem State.setReg_byteAt (r : Reg) (v : Byte) (addr : Nat) : (s.setReg r v).byteAt addr = s.byteAt addr := rfl

/-! ## `State.setI` -/

@[simp] theorem State.setI_mem (v : Word) : (s.setI v).mem = s.mem := rfl
@[simp] theorem State.setI_x (v : Word) : (s.setI v).x = s.x := rfl
@[simp] theorem State.setI_i (v : Word) : (s.setI v).i = v := rfl
@[simp] theorem State.setI_pc (v : Word) : (s.setI v).pc = s.pc := rfl
@[simp] theorem State.setI_stack (v : Word) : (s.setI v).stack = s.stack := rfl
@[simp] theorem State.setI_dt (v : Word) : (s.setI v).dt = s.dt := rfl
@[simp] theorem State.setI_st (v : Word) : (s.setI v).st = s.st := rfl
@[simp] theorem State.setI_fb (v : Word) : (s.setI v).fb = s.fb := rfl
@[simp] theorem State.setI_fault (v : Word) : (s.setI v).fault = s.fault := rfl
@[simp] theorem State.setI_config (v : Word) : (s.setI v).config = s.config := rfl
@[simp] theorem State.setI_rand (v : Word) : (s.setI v).rand = s.rand := rfl
@[simp] theorem State.setI_reg (v : Word) (r : Reg) : (s.setI v).reg r = s.reg r := rfl
@[simp] theorem State.setI_byteAt (v : Word) (addr : Nat) : (s.setI v).byteAt addr = s.byteAt addr := rfl

/-! ## `State.setPc` -/

@[simp] theorem State.setPc_mem (p : Word) : (s.setPc p).mem = s.mem := rfl
@[simp] theorem State.setPc_x (p : Word) : (s.setPc p).x = s.x := rfl
@[simp] theorem State.setPc_i (p : Word) : (s.setPc p).i = s.i := rfl
@[simp] theorem State.setPc_pc (p : Word) : (s.setPc p).pc = p := rfl
@[simp] theorem State.setPc_stack (p : Word) : (s.setPc p).stack = s.stack := rfl
@[simp] theorem State.setPc_dt (p : Word) : (s.setPc p).dt = s.dt := rfl
@[simp] theorem State.setPc_st (p : Word) : (s.setPc p).st = s.st := rfl
@[simp] theorem State.setPc_fb (p : Word) : (s.setPc p).fb = s.fb := rfl
@[simp] theorem State.setPc_fault (p : Word) : (s.setPc p).fault = s.fault := rfl
@[simp] theorem State.setPc_config (p : Word) : (s.setPc p).config = s.config := rfl
@[simp] theorem State.setPc_rand (p : Word) : (s.setPc p).rand = s.rand := rfl
@[simp] theorem State.setPc_reg (p : Word) (r : Reg) : (s.setPc p).reg r = s.reg r := rfl
@[simp] theorem State.setPc_byteAt (p : Word) (addr : Nat) : (s.setPc p).byteAt addr = s.byteAt addr := rfl

/-! ## `State.advance` -/

@[simp] theorem State.advance_mem : (s.advance).mem = s.mem := rfl
@[simp] theorem State.advance_x : (s.advance).x = s.x := rfl
@[simp] theorem State.advance_i : (s.advance).i = s.i := rfl
@[simp] theorem State.advance_pc : (s.advance).pc = s.pc + 2#16 := rfl
@[simp] theorem State.advance_stack : (s.advance).stack = s.stack := rfl
@[simp] theorem State.advance_dt : (s.advance).dt = s.dt := rfl
@[simp] theorem State.advance_st : (s.advance).st = s.st := rfl
@[simp] theorem State.advance_fb : (s.advance).fb = s.fb := rfl
@[simp] theorem State.advance_fault : (s.advance).fault = s.fault := rfl
@[simp] theorem State.advance_config : (s.advance).config = s.config := rfl
@[simp] theorem State.advance_rand : (s.advance).rand = s.rand := rfl
@[simp] theorem State.advance_reg (r : Reg) : (s.advance).reg r = s.reg r := rfl
@[simp] theorem State.advance_byteAt (addr : Nat) : (s.advance).byteAt addr = s.byteAt addr := rfl

/-! ## `State.skip` -/

@[simp] theorem State.skip_mem : (s.skip).mem = s.mem := rfl
@[simp] theorem State.skip_x : (s.skip).x = s.x := rfl
@[simp] theorem State.skip_i : (s.skip).i = s.i := rfl
@[simp] theorem State.skip_pc : (s.skip).pc = s.pc + 2#16 := rfl
@[simp] theorem State.skip_stack : (s.skip).stack = s.stack := rfl
@[simp] theorem State.skip_dt : (s.skip).dt = s.dt := rfl
@[simp] theorem State.skip_st : (s.skip).st = s.st := rfl
@[simp] theorem State.skip_fb : (s.skip).fb = s.fb := rfl
@[simp] theorem State.skip_fault : (s.skip).fault = s.fault := rfl
@[simp] theorem State.skip_config : (s.skip).config = s.config := rfl
@[simp] theorem State.skip_rand : (s.skip).rand = s.rand := rfl
@[simp] theorem State.skip_reg (r : Reg) : (s.skip).reg r = s.reg r := rfl
@[simp] theorem State.skip_byteAt (addr : Nat) : (s.skip).byteAt addr = s.byteAt addr := rfl

/-! ## `State.push` -/

@[simp] theorem State.push_mem (v : Word) : (s.push v).mem = s.mem := rfl
@[simp] theorem State.push_x (v : Word) : (s.push v).x = s.x := rfl
@[simp] theorem State.push_i (v : Word) : (s.push v).i = s.i := rfl
@[simp] theorem State.push_pc (v : Word) : (s.push v).pc = s.pc := rfl
@[simp] theorem State.push_stack (v : Word) : (s.push v).stack = v :: s.stack := rfl
@[simp] theorem State.push_dt (v : Word) : (s.push v).dt = s.dt := rfl
@[simp] theorem State.push_st (v : Word) : (s.push v).st = s.st := rfl
@[simp] theorem State.push_fb (v : Word) : (s.push v).fb = s.fb := rfl
@[simp] theorem State.push_fault (v : Word) : (s.push v).fault = s.fault := rfl
@[simp] theorem State.push_config (v : Word) : (s.push v).config = s.config := rfl
@[simp] theorem State.push_rand (v : Word) : (s.push v).rand = s.rand := rfl
@[simp] theorem State.push_reg (v : Word) (r : Reg) : (s.push v).reg r = s.reg r := rfl
@[simp] theorem State.push_byteAt (v : Word) (addr : Nat) : (s.push v).byteAt addr = s.byteAt addr := rfl

/-! ## `State.setStack` -/

@[simp] theorem State.setStack_mem (v : List Word) : (s.setStack v).mem = s.mem := rfl
@[simp] theorem State.setStack_x (v : List Word) : (s.setStack v).x = s.x := rfl
@[simp] theorem State.setStack_i (v : List Word) : (s.setStack v).i = s.i := rfl
@[simp] theorem State.setStack_pc (v : List Word) : (s.setStack v).pc = s.pc := rfl
@[simp] theorem State.setStack_stack (v : List Word) : (s.setStack v).stack = v := rfl
@[simp] theorem State.setStack_dt (v : List Word) : (s.setStack v).dt = s.dt := rfl
@[simp] theorem State.setStack_st (v : List Word) : (s.setStack v).st = s.st := rfl
@[simp] theorem State.setStack_fb (v : List Word) : (s.setStack v).fb = s.fb := rfl
@[simp] theorem State.setStack_fault (v : List Word) : (s.setStack v).fault = s.fault := rfl
@[simp] theorem State.setStack_config (v : List Word) : (s.setStack v).config = s.config := rfl
@[simp] theorem State.setStack_rand (v : List Word) : (s.setStack v).rand = s.rand := rfl
@[simp] theorem State.setStack_reg (v : List Word) (r : Reg) : (s.setStack v).reg r = s.reg r := rfl
@[simp] theorem State.setStack_byteAt (v : List Word) (addr : Nat) : (s.setStack v).byteAt addr = s.byteAt addr := rfl

/-! ## `State.setFb` -/

@[simp] theorem State.setFb_mem (f : Frame) : (s.setFb f).mem = s.mem := rfl
@[simp] theorem State.setFb_x (f : Frame) : (s.setFb f).x = s.x := rfl
@[simp] theorem State.setFb_i (f : Frame) : (s.setFb f).i = s.i := rfl
@[simp] theorem State.setFb_pc (f : Frame) : (s.setFb f).pc = s.pc := rfl
@[simp] theorem State.setFb_stack (f : Frame) : (s.setFb f).stack = s.stack := rfl
@[simp] theorem State.setFb_dt (f : Frame) : (s.setFb f).dt = s.dt := rfl
@[simp] theorem State.setFb_st (f : Frame) : (s.setFb f).st = s.st := rfl
@[simp] theorem State.setFb_fb (f : Frame) : (s.setFb f).fb = f := rfl
@[simp] theorem State.setFb_fault (f : Frame) : (s.setFb f).fault = s.fault := rfl
@[simp] theorem State.setFb_config (f : Frame) : (s.setFb f).config = s.config := rfl
@[simp] theorem State.setFb_rand (f : Frame) : (s.setFb f).rand = s.rand := rfl
@[simp] theorem State.setFb_reg (f : Frame) (r : Reg) : (s.setFb f).reg r = s.reg r := rfl
@[simp] theorem State.setFb_byteAt (f : Frame) (addr : Nat) : (s.setFb f).byteAt addr = s.byteAt addr := rfl
@[simp] theorem State.setFb_pixel (f : Frame) (px : Col) (py : Row) : (s.setFb f).pixel px py = pixelAt f px py := rfl

/-! ## `State.raise` -/

@[simp] theorem State.raise_mem (f : Fault) : (s.raise f).mem = s.mem := rfl
@[simp] theorem State.raise_x (f : Fault) : (s.raise f).x = s.x := rfl
@[simp] theorem State.raise_i (f : Fault) : (s.raise f).i = s.i := rfl
@[simp] theorem State.raise_pc (f : Fault) : (s.raise f).pc = s.pc := rfl
@[simp] theorem State.raise_stack (f : Fault) : (s.raise f).stack = s.stack := rfl
@[simp] theorem State.raise_dt (f : Fault) : (s.raise f).dt = s.dt := rfl
@[simp] theorem State.raise_st (f : Fault) : (s.raise f).st = s.st := rfl
@[simp] theorem State.raise_fb (f : Fault) : (s.raise f).fb = s.fb := rfl
@[simp] theorem State.raise_fault (f : Fault) : (s.raise f).fault = some f := rfl
@[simp] theorem State.raise_config (f : Fault) : (s.raise f).config = s.config := rfl
@[simp] theorem State.raise_rand (f : Fault) : (s.raise f).rand = s.rand := rfl
@[simp] theorem State.raise_reg (f : Fault) (r : Reg) : (s.raise f).reg r = s.reg r := rfl
@[simp] theorem State.raise_byteAt (f : Fault) (addr : Nat) : (s.raise f).byteAt addr = s.byteAt addr := rfl

/-! ## `State.consumeRand` -/

@[simp] theorem State.consumeRand_mem : (s.consumeRand).mem = s.mem := rfl
@[simp] theorem State.consumeRand_x : (s.consumeRand).x = s.x := rfl
@[simp] theorem State.consumeRand_i : (s.consumeRand).i = s.i := rfl
@[simp] theorem State.consumeRand_pc : (s.consumeRand).pc = s.pc := rfl
@[simp] theorem State.consumeRand_stack : (s.consumeRand).stack = s.stack := rfl
@[simp] theorem State.consumeRand_dt : (s.consumeRand).dt = s.dt := rfl
@[simp] theorem State.consumeRand_st : (s.consumeRand).st = s.st := rfl
@[simp] theorem State.consumeRand_fb : (s.consumeRand).fb = s.fb := rfl
@[simp] theorem State.consumeRand_fault : (s.consumeRand).fault = s.fault := rfl
@[simp] theorem State.consumeRand_config : (s.consumeRand).config = s.config := rfl
@[simp] theorem State.consumeRand_rand : (s.consumeRand).rand = ⟨s.rand.pending.tail, s.rand.count + 1⟩ := rfl
@[simp] theorem State.consumeRand_reg (r : Reg) : (s.consumeRand).reg r = s.reg r := rfl
@[simp] theorem State.consumeRand_byteAt (addr : Nat) : (s.consumeRand).byteAt addr = s.byteAt addr := rfl

/-! ## `State.rst` -/

@[simp] theorem State.rst_mem : (s.rst).mem = [] := rfl
@[simp] theorem State.rst_x : (s.rst).x = Vector.replicate 16 0x00#8 := rfl
@[simp] theorem State.rst_i : (s.rst).i = 0x0000#16 := rfl
@[simp] theorem State.rst_pc : (s.rst).pc = loadAddr := rfl
@[simp] theorem State.rst_stack : (s.rst).stack = [] := rfl
@[simp] theorem State.rst_dt : (s.rst).dt = 0x00#8 := rfl
@[simp] theorem State.rst_st : (s.rst).st = 0x00#8 := rfl
@[simp] theorem State.rst_fb : (s.rst).fb = clearFrame := rfl
@[simp] theorem State.rst_fault : (s.rst).fault = none := rfl
@[simp] theorem State.rst_config : (s.rst).config = s.config := rfl
@[simp] theorem State.rst_rand : (s.rst).rand = s.rand := rfl
@[simp] theorem State.rst_reg (r : Reg) : s.rst.reg r = 0x00#8 := by
  simp [State.reg]
@[simp] theorem State.rst_byteAt (addr : Nat) : s.rst.byteAt addr = 0x00#8 := rfl

/-! ## `State.reset` -/

@[simp] theorem State.reset_mem : State.reset.mem = [] := rfl
@[simp] theorem State.reset_x : State.reset.x = Vector.replicate 16 0x00#8 := rfl
@[simp] theorem State.reset_i : State.reset.i = 0x0000#16 := rfl
@[simp] theorem State.reset_pc : State.reset.pc = loadAddr := rfl
@[simp] theorem State.reset_stack : State.reset.stack = [] := rfl
@[simp] theorem State.reset_dt : State.reset.dt = 0x00#8 := rfl
@[simp] theorem State.reset_st : State.reset.st = 0x00#8 := rfl
@[simp] theorem State.reset_fb : State.reset.fb = clearFrame := rfl
@[simp] theorem State.reset_fault : State.reset.fault = none := rfl
@[simp] theorem State.reset_config : State.reset.config = Config.default := rfl
@[simp] theorem State.reset_rand : State.reset.rand = ⟨[], 0⟩ := rfl
@[simp] theorem State.reset_reg (r : Reg) : State.reset.reg r = 0x00#8 := by
  simp [State.reg]
@[simp] theorem State.reset_byteAt (addr : Nat) : State.reset.byteAt addr = 0x00#8 := rfl

/-! ## Registers -/

@[simp] theorem State.reg_setReg_same (r : Reg) (v : Byte) : (s.setReg r v).reg r = v := by
  simp [State.reg, State.setReg]

theorem State.reg_setReg (r q : Reg) (v : Byte) : (s.setReg r v).reg q = if q = r then v else s.reg q := by
  by_cases h : q = r
  · subst h
    simp
  · have hne : r.toNat ≠ q.toNat := fun e => h (BitVec.eq_of_toNat_eq e.symm)
    simp [State.reg, State.setReg, hne, h]

theorem State.reg_setReg_ne {r q : Reg} (h : q ≠ r) (v : Byte) : (s.setReg r v).reg q = s.reg q := by
  simp [State.reg_setReg, h]

/-- Two states with the same registers have the same register file. -/
theorem State.x_ext {s t : State} (h : ∀ r, t.reg r = s.reg r) : t.x = s.x := by
  apply Vector.ext
  intro k hk
  have := h (BitVec.ofNat 4 k)
  simpa [State.reg, Nat.mod_eq_of_lt hk] using this

theorem State.setReg_setReg (r : Reg) (v w : Byte) : (s.setReg r v).setReg r w = s.setReg r w := by
  simp [State.setReg]

theorem State.setReg_self (r : Reg) : s.setReg r (s.reg r) = s := by
  simp [State.setReg, State.reg]

theorem State.setReg_comm {r q : Reg} (h : r ≠ q) (v w : Byte) :
    (s.setReg r v).setReg q w = (s.setReg q w).setReg r v := by
  have hne : r.toNat ≠ q.toNat := fun e => h (BitVec.eq_of_toNat_eq e)
  simp only [State.setReg]
  rw [Vector.set_comm _ _ hne]

/-! ## `State.setResultFlag` and `State.skipIf` -/

@[simp] theorem State.setResultFlag_mem (a : Reg) (v : Byte) (f : Bool) : (s.setResultFlag a v f).mem = s.mem := rfl
@[simp] theorem State.setResultFlag_i (a : Reg) (v : Byte) (f : Bool) : (s.setResultFlag a v f).i = s.i := rfl
@[simp] theorem State.setResultFlag_pc (a : Reg) (v : Byte) (f : Bool) : (s.setResultFlag a v f).pc = s.pc := rfl
@[simp] theorem State.setResultFlag_stack (a : Reg) (v : Byte) (f : Bool) : (s.setResultFlag a v f).stack = s.stack := rfl
@[simp] theorem State.setResultFlag_dt (a : Reg) (v : Byte) (f : Bool) : (s.setResultFlag a v f).dt = s.dt := rfl
@[simp] theorem State.setResultFlag_st (a : Reg) (v : Byte) (f : Bool) : (s.setResultFlag a v f).st = s.st := rfl
@[simp] theorem State.setResultFlag_fb (a : Reg) (v : Byte) (f : Bool) : (s.setResultFlag a v f).fb = s.fb := rfl
@[simp] theorem State.setResultFlag_fault (a : Reg) (v : Byte) (f : Bool) : (s.setResultFlag a v f).fault = s.fault := rfl
@[simp] theorem State.setResultFlag_config (a : Reg) (v : Byte) (f : Bool) : (s.setResultFlag a v f).config = s.config := rfl
@[simp] theorem State.setResultFlag_rand (a : Reg) (v : Byte) (f : Bool) : (s.setResultFlag a v f).rand = s.rand := rfl
@[simp] theorem State.setResultFlag_byteAt (a : Reg) (v : Byte) (f : Bool) (addr : Nat) : (s.setResultFlag a v f).byteAt addr = s.byteAt addr := rfl

/-- Every register after a result and a flag: the flag is written last (R132). -/
theorem State.reg_setResultFlag (a : Reg) (v : Byte) (f : Bool) (q : Reg) :
    (s.setResultFlag a v f).reg q = if q = VF then flagByte f else if q = a then v else s.reg q := by
  simp [State.setResultFlag, State.reg_setReg]

/-- The flag is written last: `VF` holds it whatever the destination (R132). -/
@[simp] theorem State.setResultFlag_vf (a : Reg) (v : Byte) (f : Bool) :
    (s.setResultFlag a v f).reg VF = flagByte f := by
  simp [State.setResultFlag]

theorem State.setResultFlag_dest {a : Reg} (h : a ≠ VF) (v : Byte) (f : Bool) :
    (s.setResultFlag a v f).reg a = v := by
  simp [State.setResultFlag, State.reg_setReg, h]

theorem State.setResultFlag_other {a r : Reg} (ha : r ≠ a) (hf : r ≠ VF) (v : Byte) (f : Bool) :
    (s.setResultFlag a v f).reg r = s.reg r := by
  simp [State.setResultFlag, State.reg_setReg, ha, hf]

@[simp] theorem State.skipIf_mem (c : Bool) : (s.skipIf c).mem = s.mem := by cases c <;> rfl
@[simp] theorem State.skipIf_x (c : Bool) : (s.skipIf c).x = s.x := by cases c <;> rfl
@[simp] theorem State.skipIf_i (c : Bool) : (s.skipIf c).i = s.i := by cases c <;> rfl
theorem State.skipIf_pc (c : Bool) : (s.skipIf c).pc = if c then s.pc + 2#16 else s.pc := by
  cases c <;> rfl
@[simp] theorem State.skipIf_stack (c : Bool) : (s.skipIf c).stack = s.stack := by cases c <;> rfl
@[simp] theorem State.skipIf_dt (c : Bool) : (s.skipIf c).dt = s.dt := by cases c <;> rfl
@[simp] theorem State.skipIf_st (c : Bool) : (s.skipIf c).st = s.st := by cases c <;> rfl
@[simp] theorem State.skipIf_fb (c : Bool) : (s.skipIf c).fb = s.fb := by cases c <;> rfl
@[simp] theorem State.skipIf_fault (c : Bool) : (s.skipIf c).fault = s.fault := by cases c <;> rfl
@[simp] theorem State.skipIf_config (c : Bool) : (s.skipIf c).config = s.config := by cases c <;> rfl
@[simp] theorem State.skipIf_rand (c : Bool) : (s.skipIf c).rand = s.rand := by cases c <;> rfl
@[simp] theorem State.skipIf_reg (c : Bool) (k : Reg) : (s.skipIf c).reg k = s.reg k := by cases c <;> rfl
@[simp] theorem State.skipIf_byteAt (c : Bool) (k : Nat) : (s.skipIf c).byteAt k = s.byteAt k := by cases c <;> rfl

/-- Two states are equal when all their fields are: the register file read register by register. -/
theorem State.ext_fields {s t : State} (hmem : t.mem = s.mem) (hx : ∀ r, t.reg r = s.reg r) (hi : t.i = s.i)
    (hpc : t.pc = s.pc) (hstack : t.stack = s.stack) (hdt : t.dt = s.dt) (hst : t.st = s.st) (hfb : t.fb = s.fb)
    (hfault : t.fault = s.fault) (hconfig : t.config = s.config) (hrand : t.rand = s.rand) : t = s := by
  have hx := State.x_ext hx
  obtain ⟨⟨⟩, _, _⟩ := s
  obtain ⟨⟨⟩, _, _⟩ := t
  simp_all

end Sys2Proof.Machine
end

