-- ==== Sys2Proof/Laws/Ops.lean ====
section
/-! SUPPORT. What each shared operation can do, said once. -/

namespace Sys2Proof.Machine

/-! ## Reads of memory and the fetch -/

theorem State.memRead_ok {s : State} {addr : Nat} (h : addr < memSize) : s.memRead addr = .ok (s.byteAt addr) := by
  simp [State.memRead, h]

theorem State.memRead_error {s : State} {addr : Nat} (h : memSize ≤ addr) :
    s.memRead addr = .error (.outOfRange s.pc addr) := by
  simp [State.memRead, Nat.not_lt.2 h]

/-- Everything the fetch can answer (R53, R54, R203). -/
theorem State.fetch_cases (s : State) :
    (memSize ≤ s.pc.toNat ∧ s.fetch = .error (.outOfRange s.pc s.pc.toNat)) ∨
    (s.pc.toNat + 1 = memSize ∧ s.fetch = .error (.outOfRange s.pc (s.pc.toNat + 1))) ∨
    (s.pc.toNat + 1 < memSize ∧
      s.fetch = .ok (wordOfBytes (s.byteAt s.pc.toNat) (s.byteAt (s.pc.toNat + 1)))) := by
  by_cases h0 : s.pc.toNat < memSize
  · by_cases h1 : s.pc.toNat + 1 < memSize
    · exact .inr (.inr ⟨h1, by simp [State.fetch, State.memRead, h0, h1]⟩)
    · refine .inr (.inl ⟨by omega, ?_⟩)
      simp [State.fetch, State.memRead, h0, h1]
  · exact .inl ⟨by omega, by simp [State.fetch, State.memRead, h0]⟩

theorem State.fetch_ok_bound {s : State} {w : Word} (h : s.fetch = .ok w) : s.pc.toNat + 1 < memSize := by
  rcases s.fetch_cases with ⟨-, e⟩ | ⟨-, e⟩ | ⟨hb, -⟩
  · rw [e] at h
    cases h
  · rw [e] at h
    cases h
  · exact hb

/-! ## The step -/

/-- Everything a step that answers a next state can have done (R74, R201, R203). -/
theorem step_cases {s t : State} (h : step s = .next t) :
    s.fault = none ∧
      ((∃ f, s.fetch = .error f ∧ t = s.raise f) ∨
       (∃ w, s.fetch = .ok w ∧ decode w = none ∧ t = s.raise (.invalidOpcode s.pc w)) ∨
       (∃ w i, s.fetch = .ok w ∧ decode w = some i ∧ exec i s = .next t)) := by
  unfold step at h
  split at h
  · cases h
  · refine ⟨‹_›, ?_⟩
    split at h
    · cases h
      exact .inl ⟨_, ‹_›, rfl⟩
    · split at h
      · cases h
        exact .inr (.inl ⟨_, ‹_›, ‹_›, rfl⟩)
      · exact .inr (.inr ⟨_, _, ‹_›, ‹_›, h⟩)

/-! ## Addresses -/

@[simp] theorem addr16_toNat (nnn : Addr12) : (addr16 nnn).toNat = nnn.toNat := by
  simp only [addr16, BitVec.toNat_setWidth]
  have := nnn.isLt
  omega

@[simp] theorem word16_toNat (v : Byte) : (word16 v).toNat = v.toNat := by
  simp only [word16, BitVec.toNat_setWidth]
  have := v.isLt
  omega

/-! ## Flags -/

theorem sum9_toNat (a b : Byte) : (sum9 a b).toNat = a.toNat + b.toNat := by
  have := a.isLt
  have := b.isLt
  simp only [sum9, BitVec.toNat_add, BitVec.toNat_setWidth]
  omega

/-- The byte of the 9-bit sum is the wrapping 8-bit sum (R144). -/
theorem sumByte_eq_add (a b : Byte) : sumByte a b = a + b := by
  apply BitVec.eq_of_toNat_eq
  simp [sumByte, sum9_toNat]

/-- The carry is set exactly when the sum passes 0xFF (R137). -/
theorem carryOut_iff (a b : Byte) : carryOut a b = true ↔ 0xFF < a.toNat + b.toNat := by
  have := a.isLt
  have := b.isLt
  rw [carryOut, ← BitVec.testBit_toNat, sum9_toNat, Nat.testBit, Nat.shiftRight_eq_div_pow]
  simp
  omega

theorem noBorrow_iff (p q : Byte) : noBorrow p q = true ↔ q.toNat ≤ p.toNat := by
  simp [noBorrow]

/-! ## Pixels -/

/-- A flip changes its own pixel and no other. -/
theorem pixelAt_flipPixel (fb : Frame) (px qx : Col) (py qy : Row) :
    pixelAt (flipPixel fb px py) qx qy = (pixelAt fb qx qy ^^ (decide (qx = px) && decide (qy = py))) := by
  by_cases hy : qy = py
  · subst hy
    simp [pixelAt, flipPixel, Fin.ext_iff]
  · have hne : py.val ≠ qy.val := fun e => hy (Fin.ext e.symm)
    simp [pixelAt, flipPixel, hne, hy]

@[simp] theorem pixelAt_clearFrame (px : Col) (py : Row) : pixelAt clearFrame px py = false := by
  simp [pixelAt]

/-- Two framebuffers with the same pixels are equal. -/
theorem frame_ext {f g : Frame} (h : ∀ px py, pixelAt f px py = pixelAt g px py) : f = g := by
  apply Vector.ext
  intro y hy
  apply BitVec.eq_of_getLsbD_eq
  intro x hx
  exact h ⟨x, hx⟩ ⟨y, hy⟩

end Sys2Proof.Machine
end

