-- ==== Sys2Proof/Laws/Display.lean ====
section
/-! SUPPORT. What the sprite's address check answers, and how `exec` takes a fault. -/

namespace Sys2Proof.Machine

theorem firstBadFrom_none {addr n : Nat} : firstBadFrom addr n = none ↔ ∀ k, k < n → addr + k < memSize := by
  induction n generalizing addr with
  | zero => simp [firstBadFrom]
  | succ n ih =>
    by_cases h : memSize ≤ addr
    · simp only [firstBadFrom, if_pos h, reduceCtorEq, false_iff]
      exact fun hall => by
        have := hall 0 (by omega)
        omega
    · simp only [firstBadFrom, if_neg h, ih]
      constructor
      · intro hall k hk
        rcases k with _ | k
        · omega
        · have := hall k (by omega)
          omega
      · intro hall k hk
        have := hall (k + 1) (by omega)
        omega

theorem firstBadFrom_some {addr n bad : Nat} :
    firstBadFrom addr n = some bad ↔
      ∃ k, k < n ∧ memSize ≤ addr + k ∧ (∀ m, m < k → addr + m < memSize) ∧ bad = addr + k := by
  induction n generalizing addr with
  | zero => simp [firstBadFrom]
  | succ n ih =>
    by_cases h : memSize ≤ addr
    · simp only [firstBadFrom, if_pos h, Option.some.injEq]
      constructor
      · rintro rfl
        exact ⟨0, by omega, h, by omega, rfl⟩
      · rintro ⟨k, -, -, hm, rfl⟩
        rcases k with _ | k
        · rfl
        · have := hm 0 (by omega)
          omega
    · simp only [firstBadFrom, if_neg h, ih]
      constructor
      · rintro ⟨k, hk, hb, hm, rfl⟩
        refine ⟨k + 1, by omega, by omega, fun m hlt => ?_, by omega⟩
        rcases m with _ | m
        · omega
        · have := hm m (by omega)
          omega
      · rintro ⟨k, hk, hb, hm, rfl⟩
        rcases k with _ | k
        · omega
        · refine ⟨k, by omega, by omega, fun m hlt => ?_, by omega⟩
          have := hm (m + 1) (by omega)
          omega

/-- Every way `exec` answers: the latch is left alone, or one of the three faults of R203's last item is taken. -/
theorem exec_cases {i : Instr} {s t : State} (h : exec i s = .next t) :
    t.fault = s.fault ∨
    (i = .ret ∧ s.stack = [] ∧ t = s.raise (.stackUnderflow s.pc)) ∨
    ((∃ nnn, i = .call nnn) ∧ s.config.stackLimit = some s.stack.length ∧ t = s.raise (.stackOverflow s.pc)) ∨
    (∃ a b n k, i = .drw a b n ∧ k < n.toNat ∧ memSize ≤ s.i.toNat + k ∧
      (∀ m, m < k → s.i.toNat + m < memSize) ∧ t = s.raise (.outOfRange s.pc (s.i.toNat + k))) := by
  cases i
  case ret =>
    simp only [exec, execRet] at h
    split at h <;> cases h
    · exact .inr (.inl ⟨rfl, ‹_›, rfl⟩)
    · exact .inl rfl
  case call nnn =>
    simp only [exec, execCall] at h
    cases h
    split
    · rename_i hfull
      refine .inr (.inr (.inl ⟨⟨_, rfl⟩, ?_, rfl⟩))
      simp only [State.stackFull] at hfull
      split at hfull
      · cases hfull
      · rename_i heq
        rw [heq, of_decide_eq_true hfull]
    · exact .inl rfl
  case drw a b n =>
    simp only [exec, execDrw] at h
    cases h
    split
    · rename_i hbad
      obtain ⟨k, h1, h2, h3, rfl⟩ := firstBadFrom_some.1 hbad
      exact .inr (.inr (.inr ⟨a, b, n, k, rfl, h1, h2, h3, rfl⟩))
    · exact .inl rfl
  all_goals
    simp only [exec, execCls, execJp, execSeImm, execSneImm, execSeReg, execLdImm, execAddImm, execLdReg, execOrReg,
      execAndReg, execXorReg, execAddReg, execSubReg, execShr, execSubn, execShl, execSneReg, execLdI, execJpV0,
      execRnd] at h
    cases h
    left
    simp

end Sys2Proof.Machine
end

