-- ==== Sys2Proof/Laws/Exec.lean ====
section
/-! SUPPORT. What `exec` and `step` never touch: the parameter, and, but for RND, the random-byte port; and the
fields of a state with other timers. -/

namespace Sys2Proof.Machine

variable (s : State)

/-! ## `State.withTimers` -/

@[simp] theorem State.withTimers_mem (d e : Byte) : (s.withTimers d e).mem = s.mem := rfl
@[simp] theorem State.withTimers_x (d e : Byte) : (s.withTimers d e).x = s.x := rfl
@[simp] theorem State.withTimers_i (d e : Byte) : (s.withTimers d e).i = s.i := rfl
@[simp] theorem State.withTimers_pc (d e : Byte) : (s.withTimers d e).pc = s.pc := rfl
@[simp] theorem State.withTimers_stack (d e : Byte) : (s.withTimers d e).stack = s.stack := rfl
@[simp] theorem State.withTimers_dt (d e : Byte) : (s.withTimers d e).dt = d := rfl
@[simp] theorem State.withTimers_st (d e : Byte) : (s.withTimers d e).st = e := rfl
@[simp] theorem State.withTimers_fb (d e : Byte) : (s.withTimers d e).fb = s.fb := rfl
@[simp] theorem State.withTimers_fault (d e : Byte) : (s.withTimers d e).fault = s.fault := rfl
@[simp] theorem State.withTimers_config (d e : Byte) : (s.withTimers d e).config = s.config := rfl
@[simp] theorem State.withTimers_rand (d e : Byte) : (s.withTimers d e).rand = s.rand := rfl
@[simp] theorem State.withTimers_reg (d e : Byte) (r : Reg) : (s.withTimers d e).reg r = s.reg r := rfl
@[simp] theorem State.withTimers_byteAt (d e : Byte) (addr : Nat) : (s.withTimers d e).byteAt addr = s.byteAt addr := rfl
@[simp] theorem State.withTimers_fetch (d e : Byte) : (s.withTimers d e).fetch = s.fetch := rfl

/-! ## What `exec` leaves alone -/

theorem State.skipIf_withRand (c : Bool) (r : RandPort) :
    ({ s with rand := r } : State).skipIf c = { s.skipIf c with rand := r } := by
  cases c <;> rfl

/-- No instruction changes the parameter STACK_LIMIT (10_state.md R20). -/
theorem exec_config {i : Instr} {s t : State} (h : exec i s = .next t) : t.config = s.config := by
  cases i
  case ret =>
    simp only [exec, execRet] at h
    split at h <;> cases h <;> rfl
  case call nnn =>
    simp only [exec, execCall] at h
    cases h
    split <;> rfl
  case drw a b n =>
    simp only [exec, execDrw] at h
    cases h
    split <;> rfl
  case seImm | sneImm | seReg | sneReg =>
    cases h
    exact State.skipIf_config _ _
  all_goals
    cases h
    rfl

theorem step_config {s t : State} (h : step s = .next t) : t.config = s.config := by
  obtain ⟨-, ⟨_, -, rfl⟩ | ⟨_, -, -, rfl⟩ | ⟨_, _, -, -, hx⟩⟩ := step_cases h
  · rfl
  · rfl
  · exact exec_config hx

/-- An instruction other than RND does the same whatever the random-byte port holds, and leaves the port (R143). -/
theorem exec_withRand {i : Instr} (hi : ∀ a kk, i ≠ .rnd a kk) {s t : State} (h : exec i s = .next t) (r : RandPort) :
    exec i { s with rand := r } = .next { t with rand := r } := by
  cases i
  case rnd a kk => exact absurd rfl (hi a kk)
  case ret =>
    simp only [exec, execRet] at h ⊢
    split at h <;> cases h <;> simp_all [State.raise, State.setStack, State.setPc]
  case call nnn =>
    simp only [exec, execCall] at h ⊢
    cases h
    rw [show State.stackFull { s with rand := r } = s.stackFull from rfl]
    cases s.stackFull <;> rfl
  case drw a b n =>
    simp only [exec, execDrw] at h ⊢
    cases h
    cases firstBadSprite s.i (rowCount n) <;> rfl
  case seImm | sneImm | seReg | sneReg =>
    simp only [exec, execSeImm, execSneImm, execSeReg, execSneReg] at h ⊢
    cases h
    exact congrArg _ (State.skipIf_withRand s.advance _ r)
  all_goals
    cases h
    rfl

end Sys2Proof.Machine
end

