-- ==== Sys2Proof/Laws/PerInstr.lean ====
section
/-! SUPPORT. Facts about every instruction as syntax, one lemma per constructor: the operands of a term of `Instr`
lie in the ranges of 30_encoding.md R80, because its fields have the encoded widths (R72). -/

namespace Sys2Proof.Laws.OperandsInRange

/-- The instruction is well-formed. -/
def Statement (i : Instr) : Prop := i.wellFormed = true

theorem nibble_le (r : BitVec 4) : r.toNat ≤ 15 := by
  have := r.isLt
  omega

theorem byte_le (v : Byte) : v.toNat ≤ 255 := by
  have := v.isLt
  omega

theorem addr_le (v : Addr12) : v.toNat ≤ 4095 := by
  have := v.isLt
  omega

theorem cls : Statement .cls := rfl

theorem ret : Statement .ret := rfl

theorem jp (nnn : Addr12) : Statement (.jp nnn) := by
  simp [Statement, Instr.wellFormed, addr_le nnn]

theorem call (nnn : Addr12) : Statement (.call nnn) := by
  simp [Statement, Instr.wellFormed, addr_le nnn]

theorem seImm (a : Reg) (kk : Byte) : Statement (.seImm a kk) := by
  simp [Statement, Instr.wellFormed, nibble_le a, byte_le kk]

theorem sneImm (a : Reg) (kk : Byte) : Statement (.sneImm a kk) := by
  simp [Statement, Instr.wellFormed, nibble_le a, byte_le kk]

theorem seReg (a : Reg) (b : Reg) (n : Nibble) : Statement (.seReg a b n) := by
  simp [Statement, Instr.wellFormed, nibble_le a, nibble_le b, nibble_le n]

theorem ldImm (a : Reg) (kk : Byte) : Statement (.ldImm a kk) := by
  simp [Statement, Instr.wellFormed, nibble_le a, byte_le kk]

theorem addImm (a : Reg) (kk : Byte) : Statement (.addImm a kk) := by
  simp [Statement, Instr.wellFormed, nibble_le a, byte_le kk]

theorem ldReg (a : Reg) (b : Reg) : Statement (.ldReg a b) := by
  simp [Statement, Instr.wellFormed, nibble_le a, nibble_le b]

theorem orReg (a : Reg) (b : Reg) : Statement (.orReg a b) := by
  simp [Statement, Instr.wellFormed, nibble_le a, nibble_le b]

theorem andReg (a : Reg) (b : Reg) : Statement (.andReg a b) := by
  simp [Statement, Instr.wellFormed, nibble_le a, nibble_le b]

theorem xorReg (a : Reg) (b : Reg) : Statement (.xorReg a b) := by
  simp [Statement, Instr.wellFormed, nibble_le a, nibble_le b]

theorem addReg (a : Reg) (b : Reg) : Statement (.addReg a b) := by
  simp [Statement, Instr.wellFormed, nibble_le a, nibble_le b]

theorem subReg (a : Reg) (b : Reg) : Statement (.subReg a b) := by
  simp [Statement, Instr.wellFormed, nibble_le a, nibble_le b]

theorem shr (a : Reg) (b : Reg) : Statement (.shr a b) := by
  simp [Statement, Instr.wellFormed, nibble_le a, nibble_le b]

theorem subn (a : Reg) (b : Reg) : Statement (.subn a b) := by
  simp [Statement, Instr.wellFormed, nibble_le a, nibble_le b]

theorem shl (a : Reg) (b : Reg) : Statement (.shl a b) := by
  simp [Statement, Instr.wellFormed, nibble_le a, nibble_le b]

theorem sneReg (a : Reg) (b : Reg) (n : Nibble) : Statement (.sneReg a b n) := by
  simp [Statement, Instr.wellFormed, nibble_le a, nibble_le b, nibble_le n]

theorem ldI (nnn : Addr12) : Statement (.ldI nnn) := by
  simp [Statement, Instr.wellFormed, addr_le nnn]

theorem jpV0 (nnn : Addr12) : Statement (.jpV0 nnn) := by
  simp [Statement, Instr.wellFormed, addr_le nnn]

theorem rnd (a : Reg) (kk : Byte) : Statement (.rnd a kk) := by
  simp [Statement, Instr.wellFormed, nibble_le a, byte_le kk]

theorem drw (a : Reg) (b : Reg) (n : Nibble) : Statement (.drw a b n) := by
  simp [Statement, Instr.wellFormed, nibble_le a, nibble_le b, nibble_le n]

end Sys2Proof.Laws.OperandsInRange
end

