-- ==== Sys2Proof/Tests/Slice0.lean ====
section
/-! SUPPORT. The model's own tests. Expected results are the spec's worked examples (95_test_vectors.md W1-W10,
V1-V97) or words written out from 30_encoding.md R75; then one witness for each statement that has hypotheses. -/

namespace Sys2Proof.Tests

open Sys2Proof.Machine

/-- The reset state with a word at `pc` and some registers set: the start state of the spec's vectors. -/
def start (word : Nat) (regs : List (Reg × Byte)) : State :=
  regs.foldl (fun s p => s.setReg p.1 p.2) (State.reset.withFetchWord 16 word)

/-! ## Ill-formed lines are refused (R80), one for each check -/

theorem test_asm_register_out_of_range : AsmInstr.wellFormed ⟨.ld, [.reg 16, .num 1]⟩ = false := by decide
theorem test_asm_second_register_out_of_range : AsmInstr.wellFormed ⟨.xor, [.reg 1, .reg 16]⟩ = false := by decide
theorem test_asm_kk_out_of_range : AsmInstr.wellFormed ⟨.add, [.reg 0, .num 256]⟩ = false := by decide
theorem test_asm_nnn_out_of_range : AsmInstr.wellFormed ⟨.jp, [.num 4096]⟩ = false := by decide
theorem test_asm_height_out_of_range : AsmInstr.wellFormed ⟨.drw, [.reg 0, .reg 1, .num 16]⟩ = false := by decide
theorem test_asm_jp_other_register : AsmInstr.wellFormed ⟨.jp, [.reg 1, .num 0x300]⟩ = false := by decide
theorem test_asm_wrong_shape : AsmInstr.wellFormed ⟨.cls, [.reg 0]⟩ = false := by decide
theorem test_asm_in_range : AsmInstr.wellFormed ⟨.drw, [.reg 15, .reg 0, .num 15]⟩ = true := by decide

/-! ## Every constructor's word, written out from R72 and R75 -/

theorem test_decode_cls : decode 0b0000000011100000#16 = some .cls := by decide
theorem test_decode_ret : decode 0b0000000011101110#16 = some .ret := by decide
theorem test_decode_jp : decode 0b0001001101000101#16 = some (.jp 0x345#12) := by decide
theorem test_decode_call : decode 0b0010001101000101#16 = some (.call 0x345#12) := by decide
theorem test_decode_seImm : decode 0b0011001100010010#16 = some (.seImm 3#4 0x12#8) := by decide
theorem test_decode_sneImm : decode 0b0100001100010010#16 = some (.sneImm 3#4 0x12#8) := by decide
theorem test_decode_seReg : decode 0b0101000100100111#16 = some (.seReg 1#4 2#4 7#4) := by decide
theorem test_decode_ldImm : decode 0b0110101001000010#16 = some (.ldImm 0xA#4 0x42#8) := by decide
theorem test_decode_addImm : decode 0b0111001000100000#16 = some (.addImm 2#4 0x20#8) := by decide
theorem test_decode_ldReg : decode 0b1000110000010000#16 = some (.ldReg 0xC#4 1#4) := by decide
theorem test_decode_orReg : decode 0b1000110000010001#16 = some (.orReg 0xC#4 1#4) := by decide
theorem test_decode_andReg : decode 0b1000110000010010#16 = some (.andReg 0xC#4 1#4) := by decide
theorem test_decode_xorReg : decode 0b1000110000010011#16 = some (.xorReg 0xC#4 1#4) := by decide
theorem test_decode_addReg : decode 0b1000110000010100#16 = some (.addReg 0xC#4 1#4) := by decide
theorem test_decode_subReg : decode 0b1000110000010101#16 = some (.subReg 0xC#4 1#4) := by decide
theorem test_decode_shr : decode 0b1000110000010110#16 = some (.shr 0xC#4 1#4) := by decide
theorem test_decode_subn : decode 0b1000110000010111#16 = some (.subn 0xC#4 1#4) := by decide
theorem test_decode_shl : decode 0b1000110000011110#16 = some (.shl 0xC#4 1#4) := by decide
theorem test_decode_sneReg : decode 0b1001000100100000#16 = some (.sneReg 1#4 2#4 0#4) := by decide
theorem test_decode_ldI : decode 0b1010001011110000#16 = some (.ldI 0x2F0#12) := by decide
theorem test_decode_jpV0 : decode 0b1011001100000000#16 = some (.jpV0 0x300#12) := by decide
theorem test_decode_rnd : decode 0b1100001100001111#16 = some (.rnd 3#4 0x0F#8) := by decide
theorem test_decode_drw : decode 0b1101000000010011#16 = some (.drw 0#4 1#4 3#4) := by decide
/-- V2 to V6 -/
theorem test_decode_invalid :
    [0x0000#16, 0x0123#16, 0x00E1#16, 0x8018#16, 0x801D#16, 0x801F#16, 0xE09E#16, 0xF00A#16].all
      (fun w => decide (decode w = none)) = true := by decide
theorem test_decode_truncated : decodeBytes [0x12#8] = .error .truncated := by rfl
theorem test_encode_big_endian : encode (.jp 0x345#12) = [0x13#8, 0x45#8] := by decide
theorem test_decodeTableWord : decodeTableWord 16 0x8125 = some (.subReg 1#4 2#4) := by decide

/-! ## Fetch and faults -/

/-- V1 -/
theorem test_V1_reset_memory_is_invalid :
    State.reset.afterStep.fault = some (.invalidOpcode 0x200#16 0x0000#16) := by decide
/-- V7 -/
theorem test_V7_fetch_at_FFF :
    ({ State.reset with pc := 0xFFF#16 } : State).afterStep.fault = some (.outOfRange 0xFFF#16 0x1000) := by decide
/-- V8 -/
theorem test_V8_fetch_at_1000 :
    ({ State.reset with pc := 0x1000#16 } : State).afterStep.fault = some (.outOfRange 0x1000#16 0x1000) := by decide
/-- V9 -/
theorem test_V9_fetch_at_FFE :
    let s := ({ State.reset with pc := 0xFFE#16, mem := [(0xFFE, 0x60#8), (0xFFF, 0x07#8)] } : State).afterStep
    s.reg 0#4 = 7#8 ∧ s.pc = 0x1000#16 ∧ s.fault = none := by decide
/-- V10 -/
theorem test_V10_latched_fault_is_answered :
    step ({ State.reset with fault := some (.stackUnderflow 0x202#16) } : State) = .fault (.stackUnderflow 0x202#16) := by
  rfl

/-! ## One step of each instruction -/

/-- V20 -/
theorem test_V20_ret_empty : (start 0x00EE []).afterStep.fault = some (.stackUnderflow 0x200#16) := by decide
/-- V21; the model's stack has its top first -/
theorem test_V21_ret :
    let s := ({ start 0x00EE [] with stack := [0x400#16, 0x202#16] } : State).afterStep
    s.pc = 0x400#16 ∧ s.stack = [0x202#16] := by decide
/-- W1 -/
theorem test_W1_jp : (start 0x1345 []).afterStep.pc = 0x345#16 := by decide
/-- W8 -/
theorem test_W8_call :
    (start 0x2345 []).afterStep.pc = 0x345#16 ∧ (start 0x2345 []).afterStep.stack = [0x202#16] := by decide
/-- V24 -/
theorem test_V24_call_overflow :
    let s : State := { start 0x2300 [] with config := ⟨some 2⟩, stack := [0x204#16, 0x202#16] }
    s.afterStep = { s with fault := some (.stackOverflow 0x200#16) } := by decide
/-- V26, V27 -/
theorem test_V26_seImm :
    (start 0x3312 [(3, 0x12)]).afterStep.pc = 0x204#16 ∧ (start 0x3312 [(3, 0x13)]).afterStep.pc = 0x202#16 := by decide
/-- V28, R105's example -/
theorem test_V28_sneImm :
    (start 0x4312 [(3, 0x12)]).afterStep.pc = 0x202#16 ∧ (start 0x4312 [(3, 0x13)]).afterStep.pc = 0x204#16 := by decide
/-- V11, W9 -/
theorem test_V11_seReg :
    (start 0x5127 [(1, 0x7F), (2, 0x7F)]).afterStep.pc = 0x204#16 ∧
      (start 0x5120 [(1, 0x7F), (2, 0x7E)]).afterStep.pc = 0x202#16 := by decide
/-- V31, V32 -/
theorem test_V32_sneReg :
    (start 0x9120 [(1, 1), (2, 2)]).afterStep.pc = 0x204#16 ∧ (start 0x9440 [(4, 9)]).afterStep.pc = 0x202#16 := by decide
/-- V36 -/
theorem test_V36_jpV0 : (start 0xBFFF [(0, 0xFF)]).afterStep.pc = 0x10FE#16 := by decide
/-- V40 -/
theorem test_V40_ldImm :
    (start 0x6A42 []).afterStep.reg 0xA#4 = 0x42#8 ∧ (start 0x6A42 []).afterStep.pc = 0x202#16 := by decide
/-- V41 -/
theorem test_V41_addImm_no_flag :
    let s := (start 0x7220 [(2, 0xF0), (0xF, 0x55)]).afterStep
    s.reg 2#4 = 0x10#8 ∧ s.reg VF = 0x55#8 := by decide
/-- V44 -/
theorem test_V44_ldReg : (start 0x8010 [(1, 0x99)]).afterStep.reg 0#4 = 0x99#8 := by decide
/-- V45 -/
theorem test_V45_or :
    let s := (start 0x8011 [(0, 0xF0), (1, 0x0C), (0xF, 0x77)]).afterStep
    s.reg 0#4 = 0xFC#8 ∧ s.reg VF = 0x77#8 := by decide
/-- V46 -/
theorem test_V46_and : (start 0x8012 [(0, 0xF0), (1, 0x3C)]).afterStep.reg 0#4 = 0x30#8 := by decide
/-- V47 -/
theorem test_V47_xor : (start 0x8013 [(0, 0xF0), (1, 0x3C)]).afterStep.reg 0#4 = 0xCC#8 := by decide
/-- W2 -/
theorem test_W2_add :
    let s := (start 0x8014 [(0, 0xF3), (1, 0x45)]).afterStep
    s.reg 0#4 = 0x38#8 ∧ s.reg VF = 1#8 := by decide
/-- V52 -/
theorem test_V52_add_into_vf : (start 0x8F14 [(0xF, 0x10), (1, 0xF5)]).afterStep.reg VF = 1#8 := by decide
/-- W3, with the flag of 90_conflicts.md C1 -/
theorem test_W3_sub :
    let s := (start 0x8015 [(0, 0x45), (1, 0xF3)]).afterStep
    s.reg 0#4 = 0x52#8 ∧ s.reg VF = 0#8 := by decide
/-- V57 -/
theorem test_V57_sub_reads_old_vf :
    let s := (start 0x80F5 [(0, 0x10), (0xF, 0x20)]).afterStep
    s.reg 0#4 = 0xF0#8 ∧ s.reg VF = 0#8 := by decide
/-- W4 -/
theorem test_W4_shr :
    let s := (start 0x8006 [(0, 0x45)]).afterStep
    s.reg 0#4 = 0x22#8 ∧ s.reg VF = 1#8 := by decide
/-- V59 -/
theorem test_V59_shr_ignores_b : (start 0x8016 [(0, 0x80), (1, 0xFF)]).afterStep.reg 0#4 = 0x40#8 := by decide
/-- V61 -/
theorem test_V61_subn :
    let s := (start 0x8017 [(0, 0x45), (1, 0xF3)]).afterStep
    s.reg 0#4 = 0xAE#8 ∧ s.reg VF = 1#8 := by decide
/-- V62 -/
theorem test_V62_subn_borrow :
    let s := (start 0x8017 [(0, 0xF3), (1, 0x45)]).afterStep
    s.reg 0#4 = 0x52#8 ∧ s.reg VF = 0#8 := by decide
/-- W5 -/
theorem test_W5_shl :
    let s := (start 0x800E [(0, 0xFF)]).afterStep
    s.reg 0#4 = 0xFE#8 ∧ s.reg VF = 1#8 := by decide
/-- V66 -/
theorem test_V66_shl_into_vf : (start 0x8F0E [(0xF, 0x40)]).afterStep.reg VF = 0#8 := by decide
/-- V68 -/
theorem test_V68_ldI : (start 0xAFFF []).afterStep.i = 0x0FFF#16 := by decide
/-- V69: the host supplies the draw 0xB6 -/
theorem test_V69_rnd :
    let s := ((start 0xC30F []).after (.randByte 0xB6#8)).afterStep
    s.reg 3#4 = 0x06#8 ∧ s.rand.pending = [] := by decide
/-- W6 -/
theorem test_W6_cls : ({ start 0x00E0 [] with fb := clearFrame.set 0 0xFFFFFFFFFFFFFFFF#64 } : State).afterStep.fb = clearFrame := by decide
/-- W7's start state -/
def spriteStart : State :=
  { start 0xD013 [(0, 3), (1, 4)] with
    i := 0x300#16, mem := [(0x200, 0xD0#8), (0x201, 0x13#8), (0x300, 0x55#8), (0x301, 0xAA#8), (0x302, 0x55#8)] }
/-- W7: rows 4, 5 and 6 from column 3, and nothing else -/
theorem test_W7_drw :
    spriteStart.afterStep.fb =
      ((clearFrame.set 4 (0xAA#64 <<< 3)).set 5 (0x55#64 <<< 3)).set 6 (0xAA#64 <<< 3) ∧
    spriteStart.afterStep.reg VF = 0#8 ∧ spriteStart.afterStep.i = 0x300#16 := by decide
/-- V85: both axes wrap -/
theorem test_V85_drw_wraps :
    let s : State := { start 0xD012 [(0, 62), (1, 31)] with
      i := 0x300#16, mem := [(0x200, 0xD0#8), (0x201, 0x12#8), (0x300, 0xFF#8), (0x301, 0x81#8)] }
    (List.finRange 64).filter (fun px => s.afterStep.pixel px 31) = [0, 1, 2, 3, 4, 5, 62, 63] ∧
    (List.finRange 64).filter (fun px => s.afterStep.pixel px 0) = [5, 62] ∧ s.afterStep.reg VF = 0#8 := by decide
/-- V88 -/
theorem test_V88_drw_out_of_range :
    let s : State := { start 0xD012 [(0xF, 7)] with i := 0xFFF#16 }
    s.afterStep = { s with fault := some (.outOfRange 0x200#16 0x1000) } := by decide

/-! ## Host interface and assembler -/

/-- V95, V96 -/
theorem test_V95_load :
    State.reset.reply (.load 0xFFE [1, 2, 3]) = .refused ∧ State.reset.after (.load 0xFFE [1, 2, 3]) = State.reset ∧
    (State.reset.after (.load 0xFFD [1, 2, 3])).mem = [(0xFFD, 1#8), (0xFFE, 2#8), (0xFFF, 3#8)] := by decide
/-- R29: pixel 8k is bit 7 of view byte k -/
theorem test_fb_view : fbByte (clearFrame.set 1 (1#64 <<< 8)) 9#8 = 0x80#8 := by decide
/-- P1's image from its source text -/
theorem test_P1_assembles :
    assemble 0x200
      "LD V0, 0x05\nLD V1, 0x00\nloop: ADD V1, 0x01 ; count\nse v1, 5\nJP loop\nend:\nJP end".toList =
      some [0x60, 0x05, 0x61, 0x00, 0x71, 0x01, 0x31, 0x05, 0x12, 0x04, 0x12, 0x0A] := by decide
/-- P3's data line -/
theorem test_P3_data : assemble 0x20C "DB 0x55, 0xAA, 0x55".toList = some [0x55, 0xAA, 0x55] := by decide
/-- R80: 5abN prints as SE for any N -/
theorem test_disassemble : disassemble 0x5127#16 = some "SE V1, V2".toList := by decide

/-- R80: hex immediates, and the text of a draw assembles back -/
theorem test_disassemble_assemble :
    disassemble 0xD1A7#16 = some "DRW V1, VA, 0x7".toList ∧ assemble 0 "DRW V1, VA, 0x7".toList = some [0xD1, 0xA7] := by
  decide

/-! ## Witnesses: each statement's hypotheses are met -/

/-- A state of the invariant that is not the reset state. -/
def looped : State := start 0x1200 []

theorem looped_inv : looped.Inv where
  memWf := by decide
  indexBound := by decide
  pcBound := by decide
  stackBound := by
    have h : looped.stack = [] := by decide
    simp [h]
  stackLimit := by
    have h : looped.config.stackLimit = none := by decide
    simp [h]
  latch := by
    have h : looped.fault = none := by decide
    simp [State.faultTruthful, h]

theorem witness_StepKeepsTheInvariant : looped.Inv ∧ step looped = .next looped := ⟨looped_inv, rfl⟩
theorem witness_TransactionsKeepTheInvariant : looped.Inv := looped_inv
theorem witness_CanonicalMemoriesReadingAlikeAreEqual :
    Memory.wf [(0x200, 0x12#8), (0xFFF, 0x01#8)] ∧
    ∀ addr, Memory.read [(0x200, 0x12#8), (0xFFF, 0x01#8)] addr = Memory.read [(0x200, 0x12#8), (0xFFF, 0x01#8)] addr :=
  ⟨by decide, fun _ => rfl⟩
theorem witness_DecodingAnEncodedInstructionGivesItBack : Instr.wellFormed (.drw 15#4 0#4 15#4) = true := by decide
theorem witness_EncodingADecodedWordGivesItBack : decode 0x5127#16 = some (.seReg 1#4 2#4 7#4) := by decide
theorem witness_DecoderAgreesWithTheOpcodeTable :
    decode 0x800E#16 = some (.shl 0#4 0#4) ∧ (⟨0x800E#16, 0xF00F#16⟩ : OpRow) ∈ opcodeTable := by decide
/-- at the last address a fetch can use, and at an odd one -/
theorem witness_StepRunsTheDecodedInstruction :
    ∃ s : State, s.fault = none ∧ s.pc.toNat + 1 = 4095 ∧
      decodeBytes (s.byteAt s.pc.toNat :: s.byteAt (s.pc.toNat + 1) :: []) = .ok (.ldImm 0#4 7#8, []) :=
  ⟨{ State.reset with pc := 0xFFE#16, mem := [(0xFFE, 0x60#8), (0xFFF, 0x07#8)] }, rfl, rfl, rfl⟩
theorem witness_StepRunsTheDecodedInstruction_odd :
    ∃ s : State, s.fault = none ∧ s.pc.toNat = 0x201 ∧
      decodeBytes (s.byteAt s.pc.toNat :: s.byteAt (s.pc.toNat + 1) :: []) = .ok (.cls, []) :=
  ⟨{ State.reset with pc := 0x201#16, mem := [(0x202, 0xE0#8)] }, rfl, rfl, rfl⟩
theorem witness_FaultChecksRunInOrder_latched :
    ∃ s : State, s.fault = some (.stackUnderflow 0x202#16) :=
  ⟨{ State.reset with fault := some (.stackUnderflow 0x202#16) }, rfl⟩
theorem witness_FaultChecksRunInOrder_fetch :
    (∃ s : State, s.fault = none ∧ s.pc.toNat = 4096) ∧ ∃ s : State, s.fault = none ∧ s.pc.toNat = 4095 :=
  ⟨⟨{ State.reset with pc := 0x1000#16 }, rfl, rfl⟩, ⟨{ State.reset with pc := 0xFFF#16 }, rfl, rfl⟩⟩
theorem witness_FaultChecksRunInOrder_invalid :
    ∃ s : State, s.fault = none ∧ s.pc.toNat = 4094 ∧
      decode (wordOfBytes (s.byteAt s.pc.toNat) (s.byteAt (s.pc.toNat + 1))) = none :=
  ⟨{ State.reset with pc := 0xFFE#16 }, rfl, rfl, by decide⟩
theorem witness_FaultChecksRunInOrder_ret :
    ∃ s : State, s.fault = none ∧ s.pc.toNat < 4095 ∧ s.stack = [] ∧
      decode (wordOfBytes (s.byteAt s.pc.toNat) (s.byteAt (s.pc.toNat + 1))) = some .ret :=
  ⟨start 0x00EE [], rfl, by decide, rfl, by decide⟩
theorem witness_FaultChecksRunInOrder_call :
    ∃ s : State, s.fault = none ∧ s.pc.toNat < 4095 ∧ s.config.stackLimit = some s.stack.length ∧
      decode (wordOfBytes (s.byteAt s.pc.toNat) (s.byteAt (s.pc.toNat + 1))) = some (.call 0x300#12) :=
  ⟨{ start 0x2300 [] with config := ⟨some 0⟩ }, rfl, by decide, rfl, by decide⟩
theorem witness_FaultChecksRunInOrder_drw :
    ∃ (s : State) (k : Nat), s.fault = none ∧ s.pc.toNat < 4095 ∧ k < (2#4).toNat ∧ 4096 ≤ s.i.toNat + k ∧
      (∀ m, m < k → s.i.toNat + m < 4096) ∧
      decode (wordOfBytes (s.byteAt s.pc.toNat) (s.byteAt (s.pc.toNat + 1))) = some (.drw 0#4 1#4 2#4) :=
  ⟨{ start 0xD012 [] with i := 0xFFF#16 }, 1, rfl, by decide, by decide, by decide, by decide, by decide⟩
theorem witness_FaultsAreLatchedOnlyForTheirReasons :
    ∃ t : State, step State.reset = .next t ∧ t.fault = some (.invalidOpcode 0x200#16 0x0000#16) := ⟨_, rfl, rfl⟩
theorem witness_TakingAFaultChangesOnlyTheLatch :
    ∃ t : State, step (start 0x00EE []) = .next t ∧ t.fault = some (.stackUnderflow 0x200#16) := ⟨_, rfl, rfl⟩
theorem witness_ALatchedFaultHoldsUntilReset :
    ∃ s : State, s.fault = some (.stackUnderflow 0x202#16) ∧ Transaction.rst ∉ [.stepReq, .load 0x200 [1], .dtWr 5] :=
  ⟨{ State.reset with fault := some (.stackUnderflow 0x202#16) }, rfl, by decide⟩
theorem witness_CallPushesTheReturnAddress :
    ∃ s : State, s.config.stackLimit = some 1 ∧ s.config.stackLimit ≠ some s.stack.length :=
  ⟨{ State.reset with config := ⟨some 1⟩ }, rfl, by decide⟩
theorem witness_CallOnAFullStackFaults :
    ∃ s : State, s.config.stackLimit = some s.stack.length ∧ s.stack.length = 2 :=
  ⟨{ State.reset with config := ⟨some 2⟩, stack := [0x204#16, 0x202#16] }, rfl, rfl⟩
theorem witness_RetPopsTheReturnAddress :
    (∃ s : State, s.stack = 0x1000#16 :: []) ∧ ∃ s : State, s.stack = [] :=
  ⟨⟨{ State.reset with stack := [0x1000#16] }, rfl⟩, State.reset, rfl⟩
theorem witness_ReturnComesBackAfterTheCall :
    ∃ t : State, State.reset.config.stackLimit ≠ some State.reset.stack.length ∧
      exec (.call 0x345#12) State.reset = .next t := ⟨_, by decide, rfl⟩
theorem witness_ASelfJumpStepsToItself : looped.goodEnd = true := by decide
theorem witness_RunsEndAtTheirFirstEnd :
    State.runToEnd 3 looped = .good looped ∧
      State.runToEnd 1 State.reset = .bad (State.reset.raise (.invalidOpcode 0x200#16 0#16)) := by decide
/-- one step short of the bad end -/
theorem witness_RunsEndAtTheirFirstEnd_outOfFuel :
    State.runToEnd 1 (start 0x6005 []) = .outOfFuel (start 0x6005 []).afterStep := by decide
theorem witness_FlagDestinations : (0#4 : Reg) ≠ VF ∧ (0xE#4 : Reg) ≠ VF := by decide
theorem witness_RndMasksOneFreshByte :
    (∃ s : State, s.rand.pending = 0xB6#8 :: [0x5A#8]) ∧ ∃ s : State, s.rand.pending = [] :=
  ⟨⟨{ State.reset with rand := ⟨[0xB6#8, 0x5A#8], 0⟩ }, rfl⟩, State.reset, rfl⟩
theorem witness_TwoDrawsConsumeTwoBytes :
    ∃ s : State, (3#4 : Reg) ≠ 4#4 ∧ s.rand.pending = 0xB6#8 :: 0x5A#8 :: [] :=
  ⟨{ State.reset with rand := ⟨[0xB6#8, 0x5A#8], 0⟩ }, by decide, rfl⟩
/-- at the last byte of memory (V89) -/
theorem witness_DrwXorsTheSpriteAndReportsCollision_range :
    ∃ s : State, s.i = 0xFFF#16 ∧ SpriteInRange s 1#4 :=
  ⟨{ State.reset with i := 0xFFF#16 }, rfl, fun k hk => by
    have : k = 0 := by simpa using hk
    subst this
    decide⟩
theorem witness_DrwXorsTheSpriteAndReportsCollision_collision :
    ∃ s : State, s.pixel 0 0 = true ∧ UnderSprite s 0#4 1#4 1#4 0 0 :=
  ⟨{ State.reset with mem := [(0, 0x80#8)], fb := clearFrame.set 0 1#64 }, by decide, 0, 0, by decide, by decide, by decide,
    by decide, by decide⟩
theorem witness_DrwXorsTheSpriteAndReportsCollision_none :
    ¬ ∃ px py, State.reset.pixel px py = true ∧ UnderSprite State.reset 0#4 1#4 1#4 px py := by
  rintro ⟨px, py, h, -⟩
  simp [State.pixel, State.reset, CoreState.reset] at h
theorem witness_DrwOutOfRangeChangesNothing :
    ∃ s : State, 1 < (2#4).toNat ∧ 4096 ≤ s.i.toNat + 1 ∧ ∀ m, m < 1 → s.i.toNat + m < 4096 :=
  ⟨{ State.reset with i := 0xFFF#16 }, by decide, by decide, by decide⟩
theorem witness_DrawingTwiceRestoresTheFramebuffer :
    ∃ t u : State, (0#4 : Reg) ≠ VF ∧ (1#4 : Reg) ≠ VF ∧ SpriteInRange spriteStart 3#4 ∧
      exec (.drw 0#4 1#4 3#4) spriteStart = .next t ∧ exec (.drw 0#4 1#4 3#4) t = .next u ∧
      UnderSprite spriteStart 0#4 1#4 3#4 4 4 ∧ spriteStart.pixel 4 4 = false :=
  ⟨_, _, by decide, by decide, fun k hk => by
    have : k < 3 := hk
    have hi : spriteStart.i.toNat = 0x300 := rfl
    rw [hi]
    simp only [memSize]
    omega, rfl, rfl, ⟨0, 1, by decide, by decide, by decide, by decide, by decide⟩, by decide⟩
/-- every pixel under the sprite lit -/
theorem witness_DrawingTwiceRestoresTheFramebuffer_lit :
    ∀ px py, UnderSprite { State.reset with mem := [(0, 0x80#8)], fb := clearFrame.set 0 1#64 } 0#4 1#4 1#4 px py →
      State.pixel { State.reset with mem := [(0, 0x80#8)], fb := clearFrame.set 0 1#64 } px py = true := by
  rintro px py ⟨k, j, hk, hj, hbit, hx, hy⟩
  have hk0 : k = 0 := by simpa using hk
  subst hk0
  have hj0 : j = 0 := by
    have h : ∀ j, j < 8 → (0x80#8).getLsbD (7 - j) = true → j = 0 := by decide
    exact h j hj hbit
  subst hj0
  have hpx : px = 0 := Fin.ext hx
  have hpy : py = 0 := Fin.ext hy
  subst hpx hpy
  decide
theorem witness_InstructionsReadAndWriteOnlyTheirRegisters :
    ∃ t : State, exec (.shr 0#4 1#4) State.reset = .next t ∧ (1#4 : Reg) ∉ readsRegs (.shr 0#4 1#4) :=
  ⟨_, rfl, by decide⟩
/-- a destination that is written and not read, and the flag of an addition -/
theorem witness_InstructionsReadAndWriteOnlyTheirRegisters_written :
    ∃ t : State, exec (.addReg 0#4 1#4) State.reset = .next t ∧ VF ∉ readsRegs (.addReg 0#4 1#4) ∧
      VF ∈ writesRegs (.addReg 0#4 1#4) ∧ t.fault = none :=
  ⟨_, rfl, by decide, by decide, rfl⟩
/-- two states that differ in the bytes queued after the first and in the count of requests -/
theorem witness_NothingButTheCoreStatePersists :
    ∃ s t s' : State, s.toCoreState = t.toCoreState ∧ s.config = t.config ∧ s.randIn = t.randIn ∧ s.rand ≠ t.rand ∧
      step s = .next s' :=
  ⟨{ start 0xC30F [] with rand := ⟨[0xB6#8], 0⟩ }, { start 0xC30F [] with rand := ⟨[0xB6#8, 0x5A#8], 7⟩ }, _, rfl, rfl,
    rfl, by decide, rfl⟩
theorem witness_NothingButTheCoreStatePersists_latched :
    ∃ s : State, step s = .fault (.stackUnderflow 0x202#16) :=
  ⟨{ State.reset with fault := some (.stackUnderflow 0x202#16) }, rfl⟩
theorem witness_OnlyTheNamedInstructionsChangeEachField :
    ∃ t : State, exec (.ldI 0xFFF#12) State.reset = .next t := ⟨_, rfl⟩
theorem witness_FlagSettersLeaveZeroOrOne :
    ∃ t : State, State.reset.fault = none ∧ exec (.subReg 0xF#4 1#4) State.reset = .next t ∧ t.fault = none :=
  ⟨_, rfl, rfl, rfl⟩
theorem witness_StepsDoNotObserveTheTimers :
    (∃ s t : State, step s = .next t) ∧ ∃ s : State, step s = .fault (.stackUnderflow 0x202#16) :=
  ⟨⟨looped, looped, rfl⟩, { State.reset with fault := some (.stackUnderflow 0x202#16) }, rfl⟩
theorem witness_LoadCopiesTheImageOrIsRefused :
    State.reset.mem.wf ∧ 0xFFD + [1#8, 2#8, 3#8].length = 4096 ∧ 4096 < 0xFFE + [1#8, 2#8, 3#8].length := by decide
theorem witness_ALoadIsSeenByTheNextFetch :
    ∃ s : State, s.mem.wf ∧ s.fault = none ∧ s.pc.toNat + 2 = 4096 :=
  ⟨{ State.reset with pc := 0xFFE#16 }, by decide, rfl, rfl⟩
theorem witness_AlignedSpriteByteReadsBackAsItself :
    ∃ s t : State, s.i.toNat < 4096 ∧ (s.reg 0#4).toNat % 8 = 0 ∧
      (∀ px py, py.val = (s.reg 1#4).toNat % 32 → s.pixel px py = false) ∧
      (0xFF#8).toNat = (s.reg 1#4).toNat % 32 * 8 + (s.reg 0#4).toNat % 64 / 8 ∧
      exec (.drw 0#4 1#4 1#4) s = .next t :=
  ⟨{ start 0xD011 [(0, 56), (1, 31)] with i := 0xFFF#16 }, _, by decide, by decide, by decide, by decide, rfl⟩
theorem witness_HostWritesOnlyTimersMemoryAndRandomBytes :
    Transaction.load 0x200 [1#8] ≠ .rst ∧ Transaction.load 0x200 [1#8] ≠ .stepReq := by decide
theorem witness_RstRepeatsCreation : ∃ t : State, t = looped.after .rst := ⟨_, rfl⟩
theorem witness_AssemblyAgreesWithDisassembly : decode 0x5127#16 = some (.seReg 1#4 2#4 7#4) := by decide
theorem witness_APlacedWordIsTheNextInstruction :
    State.reset.mem.wf ∧ decodeTableWord 16 0xD123 = some (.drw 1#4 2#4 3#4) := by decide

end Sys2Proof.Tests
end

section
/-! The memory view of the host port (20_memory.md R63): what `mem_rd` answers, and that it leaves the state alone. -/

namespace Sys2Proof.Machine

@[simp] theorem State.reply_memRd (s : State) (addr : Addr12) :
    s.reply (.memRd addr) = .byte (s.byteAt addr.toNat) := rfl

@[simp] theorem State.after_memRd (s : State) (addr : Addr12) : s.after (.memRd addr) = s := rfl

/-- Settles O47: the answer is the byte at the address, and `mem_rd` is one of the transactions that keep the state. -/
theorem memoryViewReadsWithoutEffect : Obligations.MemoryViewReadsWithoutEffect :=
  fun s addr => ⟨s.reply_memRd addr, s.after_memRd addr⟩

end Sys2Proof.Machine
end

section
/-! The word formats `NNN` and `AKK` taken apart again (30_encoding.md R71, R72): each field of an encoded word is the
operand that was put there. -/

namespace Sys2Proof

@[simp] theorem opField_encodeNNN (op : BitVec 4) (nnn : Addr12) : opField (encodeNNN op nnn) = op :=
  BitVec.extractLsb'_append_eq_left

@[simp] theorem nnnField_encodeNNN (op : BitVec 4) (nnn : Addr12) : nnnField (encodeNNN op nnn) = nnn :=
  BitVec.extractLsb'_append_eq_right

@[simp] theorem opField_encodeAKK (op : BitVec 4) (a : Reg) (kk : Byte) : opField (encodeAKK op a kk) = op :=
  (BitVec.extractLsb'_append_eq_of_le (by decide)).trans BitVec.extractLsb'_append_eq_left

@[simp] theorem aField_encodeAKK (op : BitVec 4) (a : Reg) (kk : Byte) : aField (encodeAKK op a kk) = a :=
  (BitVec.extractLsb'_append_eq_of_le (by decide)).trans BitVec.extractLsb'_append_eq_right

@[simp] theorem kkField_encodeAKK (op : BitVec 4) (a : Reg) (kk : Byte) : kkField (encodeAKK op a kk) = kk :=
  BitVec.extractLsb'_append_eq_right

theorem decode_encodeNNN_jp (nnn : Addr12) : decode (encodeNNN 0x1#4 nnn) = some (.jp nnn) := by
  simp [decode]

theorem decode_encodeAKK_seImm (a : Reg) (kk : Byte) : decode (encodeAKK 0x3#4 a kk) = some (.seImm a kk) := by
  simp [decode]

theorem decode_encodeAKK_sneImm (a : Reg) (kk : Byte) : decode (encodeAKK 0x4#4 a kk) = some (.sneImm a kk) := by
  simp [decode]

end Sys2Proof
end

section
/-! Jumps and skips as one write of `pc` (40_control_flow.md): the fetch advance and a taken skip are absorbed into the
last write, so the frame of each of these instructions is the frame of `State.setPc`. -/

namespace Sys2Proof.Machine

theorem sameRegs_setPc (s : State) (p : Word) : SameRegs s (s.setPc p) := fun _ => rfl

theorem sameButRegsPc_setPc (s : State) (p : Word) : SameButRegsPc s (s.setPc p) :=
  ⟨rfl, rfl, rfl, rfl, rfl, rfl, rfl, rfl, fun _ => rfl⟩

/-- A conditional skip after the fetch advance (R74): over the next instruction, or on to it. -/
theorem State.advance_skipIf (s : State) (c : Bool) :
    s.advance.skipIf c = s.setPc (if c then s.pc + 4#16 else s.pc + 2#16) := by
  cases c with
  | false => rfl
  | true =>
    have four : s.pc + 2#16 + 2#16 = s.pc + 4#16 := BitVec.add_assoc ..
    exact congrArg s.setPc four

theorem exec_jp (nnn : Addr12) (s : State) : exec (.jp nnn) s = .next (s.setPc (addr16 nnn)) := rfl

theorem exec_seImm (a : Reg) (kk : Byte) (s : State) :
    exec (.seImm a kk) s = .next (s.setPc (if s.reg a = kk then s.pc + 4#16 else s.pc + 2#16)) := by
  simp [exec, execSeImm, State.advance_skipIf]

theorem exec_sneImm (a : Reg) (kk : Byte) (s : State) :
    exec (.sneImm a kk) s = .next (s.setPc (if s.reg a ≠ kk then s.pc + 4#16 else s.pc + 2#16)) := by
  simp [exec, execSneImm, State.advance_skipIf]

/-- Settles O17: JP is one write of `pc`, and widening `nnn` to 16 bits keeps its value. -/
theorem jpJumpsToItsAddress : Obligations.JpJumpsToItsAddress :=
  fun nnn s => ⟨decode_encodeNNN_jp nnn,
    _, exec_jp nnn s, addr16_toNat nnn, sameRegs_setPc s _, sameButRegsPc_setPc s _⟩

/-- Settles O22: each skip is one write of `pc`, to the address its comparison selects. -/
theorem immediateSkipsCompareWithTheirByte : Obligations.ImmediateSkipsCompareWithTheirByte :=
  fun a kk s => ⟨decode_encodeAKK_seImm a kk, decode_encodeAKK_sneImm a kk,
    ⟨_, exec_seImm a kk s, rfl, sameRegs_setPc s _, sameButRegsPc_setPc s _⟩,
    ⟨_, exec_sneImm a kk s, rfl, sameRegs_setPc s _, sameButRegsPc_setPc s _⟩⟩

end Sys2Proof.Machine
end

section
/-! The word format `ABN` taken apart again (30_encoding.md R71, R72), and the words of the loads, of ADD Va, kk and of
the register copy and logic instructions decoded (R75). -/

namespace Sys2Proof

@[simp] theorem opField_encodeABN (op : BitVec 4) (a b : Reg) (n : Nibble) : opField (encodeABN op a b n) = op :=
  (BitVec.extractLsb'_append_eq_of_le (by decide)).trans <|
    (BitVec.extractLsb'_append_eq_of_le (by decide)).trans BitVec.extractLsb'_append_eq_left

@[simp] theorem aField_encodeABN (op : BitVec 4) (a b : Reg) (n : Nibble) : aField (encodeABN op a b n) = a :=
  (BitVec.extractLsb'_append_eq_of_le (by decide)).trans <|
    (BitVec.extractLsb'_append_eq_of_le (by decide)).trans BitVec.extractLsb'_append_eq_right

@[simp] theorem bField_encodeABN (op : BitVec 4) (a b : Reg) (n : Nibble) : bField (encodeABN op a b n) = b :=
  (BitVec.extractLsb'_append_eq_of_le (by decide)).trans BitVec.extractLsb'_append_eq_right

@[simp] theorem nField_encodeABN (op : BitVec 4) (a b : Reg) (n : Nibble) : nField (encodeABN op a b n) = n :=
  BitVec.extractLsb'_append_eq_right

theorem decode_encodeNNN_ldI (nnn : Addr12) : decode (encodeNNN 0xA#4 nnn) = some (.ldI nnn) := by
  simp [decode]

theorem decode_encodeAKK_ldImm (a : Reg) (kk : Byte) : decode (encodeAKK 0x6#4 a kk) = some (.ldImm a kk) := by
  simp [decode]

theorem decode_encodeAKK_addImm (a : Reg) (kk : Byte) : decode (encodeAKK 0x7#4 a kk) = some (.addImm a kk) := by
  simp [decode]

/-- Every word of family 0x8 is decided by its selector. -/
theorem decode_encodeABN_alu (a b : Reg) (n : Nibble) :
    decode (encodeABN 0x8#4 a b n) = decodeAlu (encodeABN 0x8#4 a b n) := by
  simp [decode]

theorem decode_encodeABN_ldReg (a b : Reg) : decode (encodeABN 0x8#4 a b 0x0#4) = some (.ldReg a b) := by
  simp [decode_encodeABN_alu, decodeAlu]

theorem decode_encodeABN_orReg (a b : Reg) : decode (encodeABN 0x8#4 a b 0x1#4) = some (.orReg a b) := by
  simp [decode_encodeABN_alu, decodeAlu]

theorem decode_encodeABN_andReg (a b : Reg) : decode (encodeABN 0x8#4 a b 0x2#4) = some (.andReg a b) := by
  simp [decode_encodeABN_alu, decodeAlu]

theorem decode_encodeABN_xorReg (a b : Reg) : decode (encodeABN 0x8#4 a b 0x3#4) = some (.xorReg a b) := by
  simp [decode_encodeABN_alu, decodeAlu]

end Sys2Proof
end

section
/-! Loads and flagless arithmetic as one write after the fetch advance (41_alu.md R130 to R136, R142): each result
and its frame are those of `State.setReg` or of `State.setI`. -/

namespace Sys2Proof.Machine

theorem exec_ldImm (a : Reg) (kk : Byte) (s : State) : exec (.ldImm a kk) s = .next (s.advance.setReg a kk) := rfl

theorem exec_addImm (a : Reg) (kk : Byte) (s : State) :
    exec (.addImm a kk) s = .next (s.advance.setReg a (s.reg a + kk)) := rfl

theorem exec_ldReg (a b : Reg) (s : State) : exec (.ldReg a b) s = .next (s.advance.setReg a (s.reg b)) := rfl

theorem exec_orReg (a b : Reg) (s : State) :
    exec (.orReg a b) s = .next (s.advance.setReg a (s.reg a ||| s.reg b)) := rfl

theorem exec_andReg (a b : Reg) (s : State) :
    exec (.andReg a b) s = .next (s.advance.setReg a (s.reg a &&& s.reg b)) := rfl

theorem exec_xorReg (a b : Reg) (s : State) :
    exec (.xorReg a b) s = .next (s.advance.setReg a (s.reg a ^^^ s.reg b)) := rfl

theorem exec_ldI (nnn : Addr12) (s : State) : exec (.ldI nnn) s = .next (s.advance.setI (addr16 nnn)) := rfl

theorem sameRegsBut_advance_setReg (s : State) (a : Reg) (v : Byte) : SameRegsBut [a] s (s.advance.setReg a v) :=
  fun _ hr => State.reg_setReg_ne s.advance (List.ne_of_not_mem_cons hr) v

theorem sameButRegsPc_advance_setReg (s : State) (a : Reg) (v : Byte) : SameButRegsPc s (s.advance.setReg a v) :=
  ⟨rfl, rfl, rfl, rfl, rfl, rfl, rfl, rfl, fun _ => rfl⟩

theorem sameAlways_advance_setI (s : State) (v : Word) : SameAlways s (s.advance.setI v) :=
  ⟨rfl, rfl, rfl, rfl, fun _ => rfl⟩

/-- What an instruction that writes one register after the fetch advance does, and what it leaves unchanged. -/
theorem exec_writesOneReg {i : Instr} {s : State} {a : Reg} {v : Byte}
    (h : exec i s = .next (s.advance.setReg a v)) :
    ∃ t, exec i s = .next t ∧ t.reg a = v ∧ t.pc = s.pc + 2#16 ∧ SameRegsBut [a] s t ∧ SameButRegsPc s t :=
  ⟨_, h, s.advance.reg_setReg_same a v, rfl, sameRegsBut_advance_setReg s a v, sameButRegsPc_advance_setReg s a v⟩

/-- Settles O27: LD Va, kk writes the one register `a`. -/
theorem ldImmLoadsItsByte : Obligations.LdImmLoadsItsByte :=
  fun a kk s => ⟨decode_encodeAKK_ldImm a kk, exec_writesOneReg (exec_ldImm a kk s)⟩

/-- Settles O28: ADD Va, kk writes the one register `a`, and the byte sum wraps modulo 256. -/
theorem addImmAddsWithoutAFlag : Obligations.AddImmAddsWithoutAFlag := by
  intro a kk s
  obtain ⟨t, hexec, hsum, hframe⟩ := exec_writesOneReg (exec_addImm a kk s)
  have hmod : (t.reg a).toNat = ((s.reg a).toNat + kk.toNat) % 256 := by rw [hsum, BitVec.toNat_add]
  exact ⟨decode_encodeAKK_addImm a kk, t, hexec, hmod, hframe⟩

/-- Settles O29: each of the four writes the one register `a`, with operands read before the write. -/
theorem copyAndLogicWriteTheirResult : Obligations.CopyAndLogicWriteTheirResult :=
  fun a b s => ⟨decode_encodeABN_ldReg a b, decode_encodeABN_orReg a b, decode_encodeABN_andReg a b,
    decode_encodeABN_xorReg a b, exec_writesOneReg (exec_ldReg a b s), exec_writesOneReg (exec_orReg a b s),
    exec_writesOneReg (exec_andReg a b s), exec_writesOneReg (exec_xorReg a b s)⟩

/-- Settles O33: LD I, nnn is one write of `I`, and widening `nnn` to 16 bits keeps its value. -/
theorem ldILoadsTheIndexRegister : Obligations.LdILoadsTheIndexRegister :=
  fun nnn s => ⟨decode_encodeNNN_ldI nnn,
    _, exec_ldI nnn s, addr16_toNat nnn, rfl, fun _ => rfl, rfl, rfl, rfl, sameAlways_advance_setI s _⟩

end Sys2Proof.Machine
end

section
/-! Clear and draw (42_display.md R170 to R175): a draw flips a set of pixels, each once; drawing one set and then
another that is disjoint from it draws their union. The bits of a sprite are such disjoint sets (R173's derived remark),
so the whole sprite is drawn by the fold of its rows, and each row by the fold of its bits. -/

namespace Sys2Proof.Machine

/-! ## CLS -/

theorem sameAlways_advance_setFb (s : State) (f : Frame) : SameAlways s (s.advance.setFb f) :=
  ⟨rfl, rfl, rfl, rfl, fun _ => rfl⟩

theorem decode_cls : decode 0x00E0#16 = some .cls := rfl

theorem exec_cls (s : State) : exec .cls s = .next (s.advance.setFb clearFrame) := rfl

/-- Settles O36: CLS is one write of the framebuffer after the fetch advance, and the clear frame has no lit pixel. -/
theorem clsClearsEveryPixel : Obligations.ClsClearsEveryPixel :=
  ⟨decode_cls, fun s => ⟨_, exec_cls s, pixelAt_clearFrame, rfl, fun _ => rfl, rfl, rfl, rfl,
    sameAlways_advance_setFb s clearFrame⟩⟩

/-! ## Drawing a set of pixels -/

/-- `e` is the drawing `d` after one flip of every pixel of `P`: those pixels are XORed with 1, and a collision is noted
when one of them was lit in `d` (R171). -/
structure Draws (P : Set (Col × Row)) (d e : Drawing) : Prop where
  pixel : ∀ p, pixelAt e.fb p.1 p.2 = true ↔ (pixelAt d.fb p.1 p.2 = true ↔ p ∉ P)
  collide : e.collide = true ↔ d.collide = true ∨ ∃ p ∈ P, pixelAt d.fb p.1 p.2 = true

theorem Draws.empty (d : Drawing) : Draws ∅ d d where
  pixel := by simp
  collide := by simp

theorem Draws.flip (d : Drawing) (px : Col) (py : Row) : Draws {(px, py)} d (d.flip px py) where
  pixel := by
    intro ⟨qx, qy⟩
    by_cases h : qx = px ∧ qy = py
    · obtain ⟨rfl, rfl⟩ := h
      simp [Drawing.flip, pixelAt_flipPixel]
    · simp [Drawing.flip, pixelAt_flipPixel, ← Bool.decide_and, h]
  collide := by simp [Drawing.flip]

/-- A pixel outside the set is as it was. -/
theorem Draws.pixel_of_notMem {P : Set (Col × Row)} {d e : Drawing} (h : Draws P d e) {p : Col × Row} (hp : p ∉ P) :
    pixelAt e.fb p.1 p.2 = true ↔ pixelAt d.fb p.1 p.2 = true := by
  simp [h.pixel, hp]

/-- Disjoint sets are drawn one after the other as their union is drawn: the second draw finds its pixels as they were
before the first. -/
theorem Draws.union {P Q : Set (Col × Row)} {d e f : Drawing} (hPQ : Disjoint P Q) (hP : Draws P d e)
    (hQ : Draws Q e f) : Draws (P ∪ Q) d f where
  pixel := by
    intro p
    by_cases hp : p ∈ P
    · have hq : p ∉ Q := hPQ.notMem_of_mem_left hp
      rw [hQ.pixel_of_notMem hq, hP.pixel]
      simp [hp]
    · rw [hQ.pixel, hP.pixel_of_notMem hp]
      simp [hp]
  collide := by
    have hsame : (∃ q ∈ Q, pixelAt e.fb q.1 q.2 = true) ↔ ∃ q ∈ Q, pixelAt d.fb q.1 q.2 = true :=
      exists_congr fun q => and_congr_right fun hq => hP.pixel_of_notMem (hPQ.notMem_of_mem_right hq)
    rw [hQ.collide, hP.collide, hsame, or_assoc]
    simp only [Set.mem_union, or_and_right, exists_or]

/-- Draws of pairwise disjoint sets, one after another, draw their union. -/
theorem Draws.foldl_range {f : Drawing → Nat → Drawing} {P : Nat → Set (Col × Row)}
    (hf : ∀ d i, Draws (P i) d (f d i)) {n : Nat} (hP : (Set.Iio n).PairwiseDisjoint P) (d : Drawing) :
    Draws (⋃ i < n, P i) d ((List.range n).foldl f d) := by
  induction n with
  | zero => simpa using Draws.empty d
  | succ n ih =>
    have hlast : Disjoint (⋃ i < n, P i) (P n) :=
      Set.disjoint_iUnion₂_left.2 fun i hi =>
        hP (Set.mem_Iio.2 (Nat.lt_succ_of_lt hi)) (Set.mem_Iio.2 n.lt_succ_self) (Nat.ne_of_lt hi)
    have hinit : Draws (⋃ i < n, P i) d ((List.range n).foldl f d) :=
      ih (hP.subset (Set.Iio_subset_Iio n.le_succ))
    rw [Set.biUnion_lt_succ, List.range_succ, List.foldl_append]
    exact hinit.union hlast (hf _ n)

/-! ## The pixels under a sprite -/

/-- The pixel under bit `j` of a sprite row on line `py`, when that bit is 1 (R171, R172). -/
def bitPixels (X : Byte) (py : Row) (row : Byte) (j : Nat) : Set (Col × Row) :=
  {p | row.getLsbD (7 - j) = true ∧ p = (spriteCol X j, py)}

/-- The pixels under row `i` of a sprite. -/
def rowPixels (X Y : Byte) (m : Memory) (base i : Nat) : Set (Col × Row) :=
  ⋃ j < 8, bitPixels X (spriteRow Y i) (m.read (base + i)) j

/-- The pixels under a sprite of height `n`. -/
def spritePixels (X Y : Byte) (m : Memory) (base n : Nat) : Set (Col × Row) := ⋃ i < n, rowPixels X Y m base i

theorem bitPixels_disjoint (X : Byte) (py : Row) (row : Byte) :
    (Set.Iio 8).PairwiseDisjoint (bitPixels X py row) := by
  intro j hj k hk hne
  rw [Function.onFun, Set.disjoint_left]
  rintro p ⟨-, rfl⟩ ⟨-, heq⟩
  have hcol : (X.toNat + j) % 64 = (X.toNat + k) % 64 := congrArg (fun p : Col × Row => p.1.val) heq
  rw [Set.mem_Iio] at hj hk
  omega

/-- Every pixel under row `i` lies on the line that row lands on. -/
theorem row_of_mem_rowPixels {X Y : Byte} {m : Memory} {base i : Nat} {p : Col × Row}
    (h : p ∈ rowPixels X Y m base i) : p.2 = spriteRow Y i := by
  obtain ⟨j, -, -, rfl⟩ := Set.mem_iUnion₂.1 h
  rfl

/-- No line is visited twice by a sprite no higher than the screen (R173). -/
theorem rowPixels_disjoint (X Y : Byte) (m : Memory) (base : Nat) {n : Nat} (hn : n ≤ 32) :
    (Set.Iio n).PairwiseDisjoint (rowPixels X Y m base) := by
  intro i hi k hk hne
  rw [Function.onFun, Set.disjoint_left]
  intro p hpi hpk
  have hrow : (Y.toNat + i) % 32 = (Y.toNat + k) % 32 :=
    congrArg Fin.val ((row_of_mem_rowPixels hpi).symm.trans (row_of_mem_rowPixels hpk))
  rw [Set.mem_Iio] at hi hk
  omega

theorem drawBit_draws (X : Byte) (py : Row) (row : Byte) (d : Drawing) (j : Nat) :
    Draws (bitPixels X py row j) d (drawBit X py row d j) := by
  by_cases hbit : row.getLsbD (7 - j) = true
  · simpa [bitPixels, drawBit, hbit] using Draws.flip d (spriteCol X j) py
  · simpa [bitPixels, drawBit, hbit] using Draws.empty d

theorem drawRow_draws (X Y : Byte) (m : Memory) (base : Nat) (d : Drawing) (i : Nat) :
    Draws (rowPixels X Y m base i) d (drawRow X Y m base d i) :=
  Draws.foldl_range (drawBit_draws X _ _) (bitPixels_disjoint X _ _) d

theorem drawSprite_draws (X Y : Byte) (m : Memory) (base : Nat) {n : Nat} (hn : n ≤ 32) (fb : Frame) :
    Draws (spritePixels X Y m base n) ⟨fb, false⟩ (drawSprite X Y m base n fb) :=
  Draws.foldl_range (drawRow_draws X Y m base) (rowPixels_disjoint X Y m base hn) _

/-! ## DRW -/

/-- The pixels under the sprite that DRW draws in a state. -/
def State.spritePixels (s : State) (a b : Reg) (n : Nibble) : Set (Col × Row) :=
  Machine.spritePixels (s.reg a) (s.reg b) s.mem s.i.toNat (rowCount n)

theorem State.mem_spritePixels_iff (s : State) (a b : Reg) (n : Nibble) (p : Col × Row) :
    p ∈ s.spritePixels a b n ↔ UnderSprite s a b n p.1 p.2 := by
  simp only [State.spritePixels, Machine.spritePixels, rowPixels, bitPixels, UnderSprite, Set.mem_iUnion, exists_prop,
    Set.mem_ofPred_eq, Prod.ext_iff, Fin.ext_iff, exists_and_left]
  rfl

theorem State.drawn_draws (s : State) (a b : Reg) (n : Nibble) :
    Draws (s.spritePixels a b n) ⟨s.fb, false⟩ (s.drawn a b n) :=
  have height : rowCount n ≤ 32 := n.isLt.le.trans (by decide)
  drawSprite_draws _ _ _ _ height _

/-- A draw flips exactly the pixels under the sprite. -/
theorem State.drawn_pixel (s : State) (a b : Reg) (n : Nibble) (px : Col) (py : Row) :
    pixelAt (s.drawn a b n).fb px py = true ↔ (s.pixel px py = true ↔ ¬ UnderSprite s a b n px py) := by
  rw [(s.drawn_draws a b n).pixel (px, py), s.mem_spritePixels_iff]
  rfl

/-- A draw notes a collision exactly when a lit pixel lies under the sprite. -/
theorem State.drawn_collide (s : State) (a b : Reg) (n : Nibble) :
    (s.drawn a b n).collide = true ↔ ∃ px py, s.pixel px py = true ∧ UnderSprite s a b n px py := by
  simp [(s.drawn_draws a b n).collide, s.mem_spritePixels_iff, State.pixel, and_comm]

theorem decode_encodeABN_drw (a b : Reg) (n : Nibble) : decode (encodeABN 0xD#4 a b n) = some (.drw a b n) := by
  simp [decode]

/-- With the whole sprite in memory (R171, D2), DRW writes the framebuffer and then the flag. -/
theorem exec_drw {s : State} {n : Nibble} (h : SpriteInRange s n) (a b : Reg) :
    exec (.drw a b n) s =
      .next ((s.advance.setFb (s.drawn a b n).fb).setReg VF (flagByte (s.drawn a b n).collide)) := by
  have hcheck : firstBadSprite s.i (rowCount n) = none := firstBadFrom_none.2 h
  simp [exec, execDrw, hcheck]

/-- Settles O37: the framebuffer and the flag are those of the draw, and the frame is that of one write of the
framebuffer and one of the flag. -/
theorem drwXorsTheSpriteAndReportsCollision : Obligations.DrwXorsTheSpriteAndReportsCollision := by
  intro a b n s
  refine ⟨decode_encodeABN_drw a b n, fun hrange => ⟨_, exec_drw hrange a b, s.drawn_pixel a b n, ?hit, ?miss, rfl,
    ?regs, rfl, rfl, rfl, sameAlways_advance_setFb s (s.drawn a b n).fb⟩⟩
  case hit =>
    intro hlit
    simp [(s.drawn_collide a b n).2 hlit, flagByte]
  case miss =>
    intro hnone
    simp [mt (s.drawn_collide a b n).1 hnone, flagByte]
  case regs =>
    exact fun _ hr => State.reg_setReg_ne _ (List.ne_of_not_mem_cons hr) _

end Sys2Proof.Machine
end

section
/-! The encoder and the decoder are each other's inverse (30_encoding.md R71, R72, R75): the fields of an encoded word
are its operands, and a word is put together again from its fields. -/

namespace Sys2Proof

/-! ## Decoding an encoded instruction -/

/-- The decoder gives back every instruction from its word (R75). -/
@[simp] theorem decode_encodeWord (i : Instr) : decode (encodeWord i) = some i := by
  cases i
  case cls | ret => rfl
  case ldReg | orReg | andReg | xorReg | addReg | subReg | shr | subn | shl =>
    simp [encodeWord, decode_encodeABN_alu, decodeAlu]
  all_goals simp [encodeWord, decode]

/-- A word is its two bytes, the upper one first (R54). -/
@[simp] theorem wordOfBytes_upperByte_lowerByte (w : Word) : wordOfBytes (upperByte w) (lowerByte w) = w :=
  BitVec.extractLsb'_append_extractLsb'

theorem decodeBytes_cons_cons_eq_ok {hi lo : Byte} {rest : List Byte} {i : Instr} :
    decodeBytes (hi :: lo :: rest) = .ok (i, rest) ↔ decode (wordOfBytes hi lo) = some i := by
  rw [decodeBytes]
  cases decode (wordOfBytes hi lo) <;> simp

/-- Settles O6: every field of the encoded word is the operand it was made of, and a word is its two bytes. -/
theorem decodingAnEncodedInstructionGivesItBack : Obligations.DecodingAnEncodedInstructionGivesItBack :=
  fun i _ _ => ⟨decode_encodeWord i, decodeBytes_cons_cons_eq_ok.2 (by simp)⟩

/-! ## Encoding a decoded word -/

theorem opField_eq_of_toNat {w : Word} {k : Nat} (h : (opField w).toNat = k) : opField w = BitVec.ofNat 4 k := by
  rw [← h, BitVec.ofNat_toNat, BitVec.setWidth_eq]

theorem nField_eq_of_toNat {w : Word} {k : Nat} (h : (nField w).toNat = k) : nField w = BitVec.ofNat 4 k := by
  rw [← h, BitVec.ofNat_toNat, BitVec.setWidth_eq]

theorem encodeNNN_fields {w : Word} {k : Nat} (h : (opField w).toNat = k) :
    encodeNNN (BitVec.ofNat 4 k) (nnnField w) = w := by
  rw [← opField_eq_of_toNat h]
  exact BitVec.extractLsb'_append_extractLsb'

theorem opField_append_aField (w : Word) : opField w ++ aField w = upperByte w :=
  BitVec.extractLsb'_append_extractLsb'_eq_extractLsb' (start₂ := 12) (start₁ := 8) rfl

theorem upperByte_append_bField (w : Word) : upperByte w ++ bField w = w.extractLsb' 4 12 :=
  BitVec.extractLsb'_append_extractLsb'_eq_extractLsb' (start₂ := 8) (start₁ := 4) rfl

theorem encodeAKK_fields {w : Word} {k : Nat} (h : (opField w).toNat = k) :
    encodeAKK (BitVec.ofNat 4 k) (aField w) (kkField w) = w := by
  rw [← opField_eq_of_toNat h, encodeAKK, opField_append_aField]
  exact BitVec.extractLsb'_append_extractLsb'

theorem encodeABN_fields {w : Word} {k : Nat} (h : (opField w).toNat = k) :
    encodeABN (BitVec.ofNat 4 k) (aField w) (bField w) (nField w) = w := by
  rw [← opField_eq_of_toNat h, encodeABN, opField_append_aField, upperByte_append_bField]
  exact BitVec.extractLsb'_append_extractLsb'

/-- A word of family 0x8 is put together from its registers and its selector. -/
theorem encodeABN_selector {w : Word} {k n : Nat} (hop : (opField w).toNat = k) (hn : (nField w).toNat = n) :
    encodeABN (BitVec.ofNat 4 k) (aField w) (bField w) (BitVec.ofNat 4 n) = w := by
  rw [← nField_eq_of_toNat hn]
  exact encodeABN_fields hop

theorem encodeWord_of_decodeSystem {w : Word} {i : Instr} (h : decodeSystem w = some i) : encodeWord i = w := by
  rw [decodeSystem] at h
  split at h
  · cases h
    exact Eq.symm ‹_›
  · split at h
    · cases h
      exact Eq.symm ‹_›
    · cases h

theorem encodeWord_of_decodeAlu {w : Word} {i : Instr} (hop : (opField w).toNat = 0x8)
    (h : decodeAlu w = some i) : encodeWord i = w := by
  rw [decodeAlu] at h
  split at h <;> cases h <;> exact encodeABN_selector hop ‹_›

/-- The encoder gives back every valid word from its instruction. -/
theorem encodeWord_of_decode {w : Word} {i : Instr} (h : decode w = some i) : encodeWord i = w := by
  rw [decode] at h
  split at h
  case h_1 => exact encodeWord_of_decodeSystem h
  case h_9 => exact encodeWord_of_decodeAlu ‹_› h
  case h_2 | h_3 | h_11 | h_12 => cases h; exact encodeNNN_fields ‹_›
  case h_4 | h_5 | h_7 | h_8 | h_13 => cases h; exact encodeAKK_fields ‹_›
  case h_6 | h_10 | h_14 => cases h; exact encodeABN_fields ‹_›
  case h_15 => cases h

/-- Settles O7: each format is put together from the fields of the word, so no bit is dropped. -/
theorem encodingADecodedWordGivesItBack : Obligations.EncodingADecodedWordGivesItBack :=
  fun _ _ => encodeWord_of_decode

/-- Settles O10: each word is the encoding of its instruction, or lies in a family and selector that has none. -/
theorem wordsWrittenOutDecodeToTheirInstructions : Obligations.WordsWrittenOutDecodeToTheirInstructions := by
  unfold Obligations.WordsWrittenOutDecodeToTheirInstructions
  decide

end Sys2Proof
end

section
/-! Which words are valid (30_encoding.md R75, R76): the rows of the opcode table do not overlap and cover what the
decoder accepts, and the words it does not accept are those of R76, counted family by family. -/

namespace Sys2Proof

/-! ## The words that do not decode -/

theorem opField_toNat (w : Word) : (opField w).toNat = w.toNat / 4096 := by
  have := w.isLt
  rw [opField, BitVec.extractLsb'_toNat, Nat.shiftRight_eq_div_pow]
  omega

theorem nField_toNat (w : Word) : (nField w).toNat = w.toNat % 16 := by
  rw [nField, BitVec.extractLsb'_toNat, Nat.shiftRight_zero]

theorem decodeSystem_eq_none_iff (w : Word) : decodeSystem w = none ↔ w ≠ 0x00E0#16 ∧ w ≠ 0x00EE#16 := by
  rw [decodeSystem]
  split <;> simp [*]

/-- A selector of family 0x8 that selects nothing (R76). -/
abbrev BadSelector (n : Nat) : Prop := (8 ≤ n ∧ n ≤ 0xD) ∨ n = 0xF

theorem decodeAlu_eq_none_iff (w : Word) : decodeAlu w = none ↔ BadSelector (nField w).toNat := by
  have := (nField w).isLt
  rw [decodeAlu]
  split
  case h_10 => exact iff_of_true rfl (by grind)
  all_goals simp [BadSelector, *]

/-- The invalid words, family by family (R76). -/
theorem decode_eq_none_iff (w : Word) :
    decode w = none ↔
      ((opField w).toNat = 0 ∧ w ≠ 0x00E0#16 ∧ w ≠ 0x00EE#16) ∨
      ((opField w).toNat = 8 ∧ BadSelector (nField w).toNat) ∨
      0xE ≤ (opField w).toNat := by
  rw [decode]
  split
  case h_1 hop => simp [hop, decodeSystem_eq_none_iff]
  case h_9 hop => simp [hop, decodeAlu_eq_none_iff]
  case h_15 => exact iff_of_true rfl (.inr (.inr (by grind)))
  all_goals simp [*]

/-! ## The rows of the table -/

theorem OpRow.covers_iff (r : OpRow) (w : Word) : r.covers w = true ↔ w &&& r.mask = r.value := by
  simp [OpRow.covers]

theorem opField_append_nnnField (w : Word) : opField w ++ nnnField w = w :=
  BitVec.extractLsb'_append_extractLsb'

theorem opField_append_middle_append_nField (w : Word) : opField w ++ w.extractLsb' 4 8 ++ nField w = w := by
  have hupper : opField w ++ w.extractLsb' 4 8 = w.extractLsb' 4 12 :=
    BitVec.extractLsb'_append_extractLsb'_eq_extractLsb' (start₂ := 12) (start₁ := 4) rfl
  rw [hupper]
  exact BitVec.extractLsb'_append_extractLsb'

theorem opField_and (v w : Word) : opField (v &&& w) = opField v &&& opField w := BitVec.extractLsb'_and

theorem nField_and (v w : Word) : nField (v &&& w) = nField v &&& nField w := BitVec.extractLsb'_and

theorem and_nibbleMask (x : BitVec 4) : x &&& 0xF#4 = x := BitVec.and_allOnes

/-- The mask of a row that fixes the family. -/
theorem and_familyMask (w : Word) : w &&& 0xF000#16 = opField w ++ 0x000#12 :=
  calc
    w &&& 0xF000#16 = (opField w ++ nnnField w) &&& (0xF#4 ++ 0x000#12) :=
      congrArg (· &&& 0xF000#16) (opField_append_nnnField w).symm
    _ = opField w ++ 0x000#12 := by rw [BitVec.and_append, and_nibbleMask, BitVec.and_zero]

/-- The mask of a row that fixes the family and the selector. -/
theorem and_selectorMask (w : Word) : w &&& 0xF00F#16 = opField w ++ 0x00#8 ++ nField w :=
  calc
    w &&& 0xF00F#16 = (opField w ++ w.extractLsb' 4 8 ++ nField w) &&& (0xF#4 ++ 0x00#8 ++ 0xF#4) :=
      congrArg (· &&& 0xF00F#16) (opField_append_middle_append_nField w).symm
    _ = opField w ++ 0x00#8 ++ nField w := by
      rw [BitVec.and_append, BitVec.and_append, and_nibbleMask, BitVec.and_zero, and_nibbleMask]

/-- An instruction's word lies in its row. -/
theorem row_covers_encodeWord (i : Instr) : i.row.covers (encodeWord i) = true := by
  rw [OpRow.covers_iff]
  cases i
  case cls | ret => rfl
  case ldReg | orReg | andReg | xorReg | addReg | subReg | shr | subn | shl =>
    simp [Instr.row, encodeWord, and_selectorMask]
  all_goals simp [Instr.row, encodeWord, and_familyMask]

theorem row_mem_opcodeTable (i : Instr) : i.row ∈ opcodeTable := by
  cases i <;> simp [Instr.row, opcodeTable]

/-- No two rows of the table agree on the bits that both of them fix. -/
theorem opcodeTable_separated :
    ∀ r ∈ opcodeTable, ∀ q ∈ opcodeTable, r.value &&& q.mask = q.value &&& r.mask → r = q := by
  decide

/-- A word lies in one row at most. -/
theorem row_unique {r q : OpRow} {w : Word} (hr : r ∈ opcodeTable) (hq : q ∈ opcodeTable) (hrw : r.covers w = true)
    (hqw : q.covers w = true) : r = q := by
  rw [OpRow.covers_iff] at hrw hqw
  refine opcodeTable_separated r hr q hq ?_
  rw [← hrw, ← hqw, BitVec.and_assoc, BitVec.and_assoc, BitVec.and_comm r.mask]

/-- What a row fixes: the family, which has instructions; in family 0 the whole word, and in family 8 a selector that
selects something. -/
theorem opcodeTable_fields :
    ∀ r ∈ opcodeTable, opField r.mask = 0xF#4 ∧ (opField r.value).toNat < 0xE ∧
      ((opField r.value).toNat = 0 → r.mask = 0xFFFF#16 ∧ (r.value = 0x00E0#16 ∨ r.value = 0x00EE#16)) ∧
      ((opField r.value).toNat = 8 →
        nField r.mask = 0xF#4 ∧ ((nField r.value).toNat < 8 ∨ (nField r.value).toNat = 0xE)) := by
  decide

/-- A word of a row is valid. -/
theorem decode_ne_none_of_covers {r : OpRow} {w : Word} (hr : r ∈ opcodeTable) (hw : r.covers w = true) :
    decode w ≠ none := by
  rw [OpRow.covers_iff] at hw
  obtain ⟨hop, hlt, hsystem, halu⟩ := opcodeTable_fields r hr
  have hfamily : opField w = opField r.value := by
    rw [← hw, opField_and, hop, and_nibbleMask]
  rw [Ne, decode_eq_none_iff, hfamily]
  rintro (⟨h0, hcls, hret⟩ | ⟨h8, hbad⟩ | hlarge)
  · obtain ⟨hmask, hvalue⟩ := hsystem h0
    rw [hmask] at hw
    have hself : w = r.value := BitVec.and_allOnes.symm.trans hw
    rcases hvalue with hvalue | hvalue
    · exact hcls (hself.trans hvalue)
    · exact hret (hself.trans hvalue)
  · obtain ⟨hmask, hgood⟩ := halu h8
    have hselector : nField w = nField r.value := by
      rw [← hw, nField_and, hmask, and_nibbleMask]
    rw [hselector, BadSelector] at hbad
    omega
  · omega

/-- Settles O8: an instruction's word lies in its row, the rows do not overlap, and a word of a row is valid. -/
theorem decoderAgreesWithTheOpcodeTable : Obligations.DecoderAgreesWithTheOpcodeTable := by
  have hcovers : ∀ {w i}, decode w = some i → i.row.covers w = true := fun {w i} h => by
    rw [← encodeWord_of_decode h]
    exact row_covers_encodeWord i
  refine ⟨fun w i h r hr => ⟨fun hrw => row_unique hr (row_mem_opcodeTable i) hrw (hcovers h), ?_⟩,
    fun w => ⟨?_, ?_⟩⟩
  · rintro rfl
    exact hcovers h
  · exact fun hnone r hr => Bool.eq_false_iff.2 fun hrw => decode_ne_none_of_covers hr hrw hnone
  · intro hall
    cases h : decode w with
    | none => rfl
    | some i => exact absurd (hcovers h) (Bool.eq_false_iff.1 (hall _ (row_mem_opcodeTable i)))

/-! ## The invalid words, counted -/

/-- The numbers of the invalid words: R76's three ranges. -/
abbrev InvalidNumber (k : Nat) : Prop :=
  (k ≤ 0x0FFF ∧ k ≠ 0x00E0 ∧ k ≠ 0x00EE) ∨ (0x8000 ≤ k ∧ k ≤ 0x8FFF ∧ BadSelector (k % 16)) ∨ 0xE000 ≤ k

theorem ne_iff_toNat_ne (w : Word) (k : Nat) (h : k < 65536) : w ≠ BitVec.ofNat 16 k ↔ w.toNat ≠ k := by
  rw [Ne, ← BitVec.toNat_inj, BitVec.toNat_ofNat, Nat.mod_eq_of_lt h]

theorem decode_eq_none_iff_invalidNumber (w : Word) : decode w = none ↔ InvalidNumber w.toNat := by
  rw [decode_eq_none_iff, opField_toNat, nField_toNat, ne_iff_toNat_ne w _ (by decide), ne_iff_toNat_ne w _ (by decide)]
  omega

section Counting

variable {p : Nat → Prop} [DecidablePred p]

theorem count_of_forall_from {a b n : Nat} (hab : a + n = b) (h : ∀ k, a ≤ k → k < b → p k) :
    Nat.count p b = Nat.count p a + n := by
  subst hab
  have hall : Nat.count (fun k => p (a + k)) n = n := Nat.count_of_forall fun k hk => h _ (by omega) (by omega)
  rw [Nat.count_add, hall]

theorem count_of_forall_not_from {a b : Nat} (hab : a ≤ b) (h : ∀ k, a ≤ k → k < b → ¬ p k) :
    Nat.count p b = Nat.count p a := by
  obtain ⟨n, rfl⟩ := Nat.exists_eq_add_of_le hab
  have hnone : Nat.count (fun k => p (a + k)) n = 0 := Nat.count_of_forall_not fun k hk => h _ (by omega) (by omega)
  rw [Nat.count_add, hnone, Nat.add_zero]

theorem length_filter_range {n : Nat} {q : Nat → Bool} (h : ∀ k, k < n → (q k = true ↔ p k)) :
    ((List.range n).filter q).length = Nat.count p n := by
  rw [Nat.count, List.countP_eq_length_filter]
  refine congrArg List.length (List.filter_congr fun k hk => ?_)
  rw [Bool.eq_iff_iff, h k (List.mem_range.1 hk), decide_eq_true_iff]

end Counting

/-- Family 0: every word but the two of CLS and RET. -/
theorem count_invalidNumber_family0 : Nat.count InvalidNumber 0x1000 = 0xFFE := by
  have hbelow : Nat.count InvalidNumber 0xE0 = 0xE0 := Nat.count_of_forall (by omega)
  have hcls : Nat.count InvalidNumber 0xE1 = Nat.count InvalidNumber 0xE0 :=
    count_of_forall_not_from (by omega) (by omega)
  have hbetween : Nat.count InvalidNumber 0xEE = Nat.count InvalidNumber 0xE1 + 0xD :=
    count_of_forall_from (by omega) (by omega)
  have hret : Nat.count InvalidNumber 0xEF = Nat.count InvalidNumber 0xEE :=
    count_of_forall_not_from (by omega) (by omega)
  have habove : Nat.count InvalidNumber 0x1000 = Nat.count InvalidNumber 0xEF + 0xF11 :=
    count_of_forall_from (by omega) (by omega)
  rw [habove, hret, hbetween, hcls, hbelow]

/-- Sixteen words of family 8 that differ in the selector hold seven invalid ones. -/
theorem count_invalidNumber_selectors {a : Nat} (ha : 0x8000 ≤ a) (hlt : a + 15 < 0x9000) (hmod : a % 16 = 0) :
    Nat.count InvalidNumber (a + 16) = Nat.count InvalidNumber a + 7 := by
  have hgood : Nat.count InvalidNumber (a + 8) = Nat.count InvalidNumber a :=
    count_of_forall_not_from (by omega) (by omega)
  have hbad : Nat.count InvalidNumber (a + 14) = Nat.count InvalidNumber (a + 8) + 6 :=
    count_of_forall_from (by omega) (by omega)
  have hshl : Nat.count InvalidNumber (a + 15) = Nat.count InvalidNumber (a + 14) :=
    count_of_forall_not_from (by omega) (by omega)
  have hlast : Nat.count InvalidNumber (a + 16) = Nat.count InvalidNumber (a + 15) + 1 :=
    count_of_forall_from (by omega) (by omega)
  omega

/-- The first `m` groups of sixteen words of family 8. -/
theorem count_invalidNumber_family8 {m b : Nat} (hm : m ≤ 0x100) (hb : 0x8000 + 16 * m = b) :
    Nat.count InvalidNumber b = Nat.count InvalidNumber 0x8000 + 7 * m := by
  induction m generalizing b with
  | zero =>
    obtain rfl : b = 0x8000 := by omega
    omega
  | succ m ih =>
    obtain ⟨a, rfl⟩ : ∃ a, b = a + 16 := ⟨0x8000 + 16 * m, by omega⟩
    have hbefore := ih (b := a) (by omega) (by omega)
    have hgroup := count_invalidNumber_selectors (a := a) (by omega) (by omega) (by omega)
    omega

theorem count_invalidNumber : Nat.count InvalidNumber 0x10000 = 14078 := by
  have hfamily0 := count_invalidNumber_family0
  have hfamily1To7 : Nat.count InvalidNumber 0x8000 = Nat.count InvalidNumber 0x1000 :=
    count_of_forall_not_from (by omega) (by omega)
  have hfamily8 : Nat.count InvalidNumber 0x9000 = Nat.count InvalidNumber 0x8000 + 7 * 0x100 :=
    count_invalidNumber_family8 (by omega) (by omega)
  have hfamily9ToD : Nat.count InvalidNumber 0xE000 = Nat.count InvalidNumber 0x9000 :=
    count_of_forall_not_from (by omega) (by omega)
  have hfamilyEAndF : Nat.count InvalidNumber 0x10000 = Nat.count InvalidNumber 0xE000 + 0x2000 :=
    count_of_forall_from (by omega) (by omega)
  omega

theorem length_filter_isNone :
    ((List.range 65536).filter (fun k => (decode (BitVec.ofNat 16 k)).isNone)).length = 14078 := by
  refine (length_filter_range fun k hk => ?_).trans count_invalidNumber
  rw [Option.isNone_iff_eq_none, decode_eq_none_iff_invalidNumber, BitVec.toNat_ofNat, Nat.mod_eq_of_lt hk]

/-- What is not none is some. -/
theorem length_filter_isSome_of_isNone {α : Type} {f : Nat → Option α} {n m k : Nat}
    (hnone : ((List.range n).filter (fun j => (f j).isNone)).length = m) (hn : k + m = n) :
    ((List.range n).filter (fun j => (f j).isSome)).length = k := by
  have hsplit := List.length_eq_length_filter_add (l := List.range n) (fun j => (f j).isNone)
  simp only [List.length_range, hnone, Option.not_isNone] at hsplit
  omega

theorem length_filter_isSome :
    ((List.range 65536).filter (fun k => (decode (BitVec.ofNat 16 k)).isSome)).length = 51458 :=
  length_filter_isSome_of_isNone length_filter_isNone rfl

/-- Settles O9: the ranges are those of the family and selector fields, and the valid words are all the others. -/
theorem invalidWordsAreTheListedOnes : Obligations.InvalidWordsAreTheListedOnes := by
  refine ⟨fun w => ?_, length_filter_isNone, length_filter_isSome⟩
  rw [decode_eq_none_iff_invalidNumber, ne_iff_toNat_ne w _ (by decide), ne_iff_toNat_ne w _ (by decide)]

end Sys2Proof
end

section
/-! Memory as the list of its bytes that are not 0 (20_memory.md R50): in canonical form a byte is listed exactly when
it is read, so memories that read alike are equal; and what is read after a run of bytes is written (R62). -/

namespace Sys2Proof.Machine

/-- In canonical form the listed cells are the bytes that do not read as the background. -/
theorem Memory.mem_iff_read {m : Memory} (hm : m.wf) {c : Host.Cell} :
    c ∈ m ↔ m.read c.1 = c.2 ∧ c.2 ≠ Memory.background := by
  induction m with
  | nil => simp +contextual [Memory.read]
  | cons d m ih =>
    have hhead := Memory.wf_head hm
    rw [List.mem_cons, ih (Memory.wf_tail hm), Memory.read]
    by_cases hd : d.1 = c.1
    · have hbelow : Memory.read m c.1 = Memory.background := Memory.read_of_lt (hd ▸ hhead)
      have hne := (hm.2 d (by simp)).2
      rw [if_pos hd, hbelow]
      constructor
      · rintro (rfl | ⟨h, hc⟩)
        · exact ⟨rfl, hne⟩
        · exact absurd h.symm hc
      · rintro ⟨h, -⟩
        exact .inl (Prod.ext hd.symm h.symm)
    · rw [if_neg hd]
      exact or_iff_right fun h => hd (congrArg Prod.fst h.symm)

/-- Settles O5: both lists are sorted and have the same members. -/
theorem canonicalMemoriesReadingAlikeAreEqual : Obligations.CanonicalMemoriesReadingAlikeAreEqual := by
  intro m n hm hn hread
  have hirrefl : Std.Irrefl (fun c d : Host.Cell => c.1 < d.1) := ⟨fun c => Nat.lt_irrefl c.1⟩
  have hasymm : Std.Antisymm (fun c d : Host.Cell => c.1 < d.1) := ⟨fun _ _ h h' => absurd h' (Nat.lt_asymm h)⟩
  refine List.Pairwise.eq_of_mem_iff hm.1 hn.1 fun c => ?_
  rw [Memory.mem_iff_read hm, Memory.mem_iff_read hn, hread]

/-! ## A run of writes -/

/-- Writing a run leaves the addresses outside it. -/
theorem Memory.read_writeRun_outside {m : Memory} (hm : m.wf) {org : Nat} {vs : List Byte}
    (hfit : org + vs.length ≤ memSize) {k : Nat} (hk : k < org ∨ org + vs.length ≤ k) :
    (m.writeRun org vs).read k = m.read k := by
  induction vs generalizing m org with
  | nil => rfl
  | cons v vs ih =>
    rw [List.length_cons] at hfit hk
    rw [Memory.writeRun, ih (Memory.wf_write hm (by omega) v) (by omega) (by omega), Memory.read_write hm,
      if_neg (by omega)]

/-- Writing a run puts its bytes one after another. -/
theorem Memory.read_writeRun_inside {m : Memory} (hm : m.wf) {org : Nat} {vs : List Byte}
    (hfit : org + vs.length ≤ memSize) {k : Nat} (hk : k < vs.length) :
    (m.writeRun org vs).read (org + k) = vs[k] := by
  induction vs generalizing m org k with
  | nil => exact absurd hk (Nat.not_lt_zero k)
  | cons v vs ih =>
    rw [List.length_cons] at hfit hk
    have hwf := Memory.wf_write hm (show org < memSize by omega) v
    rw [Memory.writeRun]
    cases k with
    | zero =>
      rw [Memory.read_writeRun_outside hwf (by omega) (.inl (by omega)), Memory.read_write hm,
        if_pos (Nat.add_zero org)]
      rfl
    | succ k =>
      rw [show org + (k + 1) = org + 1 + k by omega, ih hwf (by omega) (by omega)]
      rfl

/-! ## The load transaction -/

theorem State.load_of_fits (s : State) {org : Nat} {img : List Byte} (h : org + img.length ≤ memSize) :
    s.load org img = { s with mem := s.mem.writeRun org img } := by
  simp [State.load, loadFits, h]

theorem State.load_of_not_fits (s : State) {org : Nat} {img : List Byte} (h : memSize < org + img.length) :
    s.load org img = s := by
  simp [State.load, loadFits, h]

/-- Settles O45: the run of writes puts the image's bytes in place and leaves the others, and an image that does not
fit is not written. -/
theorem loadCopiesTheImageOrIsRefused : Obligations.LoadCopiesTheImageOrIsRefused := by
  intro s org img hm
  constructor
  · intro hfit
    have hload : s.after (.load org img) = { s with mem := s.mem.writeRun org img } := s.load_of_fits hfit
    rw [hload]
    exact ⟨by simp [State.reply, loadFits, hfit], fun k hk => Memory.read_writeRun_inside hm hfit hk,
      fun addr haddr => Memory.read_writeRun_outside hm hfit haddr, rfl⟩
  · intro hlarge
    exact ⟨by simp [State.reply, loadFits, hlarge], s.load_of_not_fits hlarge⟩

end Sys2Proof.Machine
end

section
/-! Calls, returns, register skips and the register jump (40_control_flow.md): each is a write of `pc`, with a push or a
pop for CALL and RET, or takes the fault of a full or an empty stack. -/

namespace Sys2Proof.Machine

theorem State.stackFull_iff (s : State) : s.stackFull = true ↔ s.config.stackLimit = some s.stack.length := by
  rw [State.stackFull]
  cases s.config.stackLimit with
  | none => simp
  | some limit => simp [eq_comm]

theorem exec_call_full (nnn : Addr12) {s : State} (h : s.config.stackLimit = some s.stack.length) :
    exec (.call nnn) s = .next (s.raise (.stackOverflow s.pc)) := by
  simp [exec, execCall, s.stackFull_iff.2 h]

theorem exec_call_room (nnn : Addr12) {s : State} (h : s.config.stackLimit ≠ some s.stack.length) :
    exec (.call nnn) s = .next ((s.push (s.pc + 2#16)).setPc (addr16 nnn)) := by
  simp only [exec, execCall, mt s.stackFull_iff.1 h]
  rfl

theorem exec_ret_nil {s : State} (h : s.stack = []) : exec .ret s = .next (s.raise (.stackUnderflow s.pc)) := by
  simp [exec, execRet, h]

theorem exec_ret_cons {s : State} {top : Word} {rest : List Word} (h : s.stack = top :: rest) :
    exec .ret s = .next ((s.setStack rest).setPc top) := by
  simp [exec, execRet, h]

theorem exec_seReg (a b : Reg) (n : Nibble) (s : State) :
    exec (.seReg a b n) s = .next (s.setPc (if s.reg a = s.reg b then s.pc + 4#16 else s.pc + 2#16)) := by
  simp [exec, execSeReg, State.advance_skipIf]

theorem exec_sneReg (a b : Reg) (n : Nibble) (s : State) :
    exec (.sneReg a b n) s = .next (s.setPc (if s.reg a ≠ s.reg b then s.pc + 4#16 else s.pc + 2#16)) := by
  simp [exec, execSneReg, State.advance_skipIf]

theorem exec_jpV0 (nnn : Addr12) (s : State) :
    exec (.jpV0 nnn) s = .next (s.setPc (word16 (s.reg 0x0#4) + addr16 nnn)) := rfl

/-- The target of JP V0 does not wrap: it is at most 0x10FE (10_state.md R32). -/
theorem jpV0_target_toNat (v : Byte) (nnn : Addr12) : (word16 v + addr16 nnn).toNat = v.toNat + nnn.toNat := by
  have := v.isLt
  have := nnn.isLt
  rw [BitVec.toNat_add, word16_toNat, addr16_toNat]
  omega

theorem sameAlways_push_setPc (s : State) (v p : Word) : SameAlways s ((s.push v).setPc p) :=
  ⟨rfl, rfl, rfl, rfl, fun _ => rfl⟩

theorem sameAlways_setStack_setPc (s : State) (rest : List Word) (p : Word) :
    SameAlways s ((s.setStack rest).setPc p) :=
  ⟨rfl, rfl, rfl, rfl, fun _ => rfl⟩

/-- Settles O18: with room, CALL is one push and one write of `pc`. -/
theorem callPushesTheReturnAddress : Obligations.CallPushesTheReturnAddress :=
  fun nnn s => ⟨decode_encodeWord (.call nnn), fun hroom =>
    ⟨_, exec_call_room nnn hroom, rfl, addr16_toNat nnn, fun _ => rfl, rfl, rfl, rfl, sameAlways_push_setPc s _ _⟩⟩

/-- Settles O19: a full stack takes the fault, which writes the latch alone. -/
theorem callOnAFullStackFaults : Obligations.CallOnAFullStackFaults := fun nnn _ h => exec_call_full nnn h

/-- Settles O20: RET is one pop and one write of `pc`, or takes the fault of an empty stack. -/
theorem retPopsTheReturnAddress : Obligations.RetPopsTheReturnAddress :=
  ⟨decode_encodeWord .ret,
    fun s top rest h =>
      ⟨_, exec_ret_cons h, rfl, rfl, fun _ => rfl, rfl, rfl, rfl, sameAlways_setStack_setPc s rest top⟩,
    fun _ h => exec_ret_nil h⟩

/-- Settles O21: RET pops what CALL pushed. -/
theorem returnComesBackAfterTheCall : Obligations.ReturnComesBackAfterTheCall := by
  intro nnn s t hroom hcall
  rw [exec_call_room nnn hroom] at hcall
  cases hcall
  exact ⟨_, exec_ret_cons rfl, rfl⟩

/-- Settles O23: each skip is one write of `pc`, to the address its comparison selects. -/
theorem registerSkipsCompareTwoRegisters : Obligations.RegisterSkipsCompareTwoRegisters :=
  fun a b n s => ⟨decode_encodeWord (.seReg a b n), decode_encodeWord (.sneReg a b n),
    ⟨_, exec_seReg a b n s, rfl, sameRegs_setPc s _, sameButRegsPc_setPc s _⟩,
    ⟨_, exec_sneReg a b n s, rfl, sameRegs_setPc s _, sameButRegsPc_setPc s _⟩⟩

/-- Settles O24: JP V0 is one write of `pc`, and its sum does not wrap. -/
theorem jpV0AddsRegisterZero : Obligations.JpV0AddsRegisterZero :=
  fun nnn s => ⟨decode_encodeWord (.jpV0 nnn),
    _, exec_jpV0 nnn s, jpV0_target_toNat _ nnn, sameRegs_setPc s _, sameButRegsPc_setPc s _⟩

end Sys2Proof.Machine
end

section
/-! The flag setters and the random byte (41_alu.md R137 to R143): a result and then its flag, or one fresh byte, after
the fetch advance. -/

namespace Sys2Proof.Machine

theorem exec_addReg (a b : Reg) (s : State) :
    exec (.addReg a b) s =
      .next (s.advance.setResultFlag a (sumByte (s.reg a) (s.reg b)) (carryOut (s.reg a) (s.reg b))) := rfl

theorem exec_subReg (a b : Reg) (s : State) :
    exec (.subReg a b) s =
      .next (s.advance.setResultFlag a (s.reg a - s.reg b) (noBorrow (s.reg a) (s.reg b))) := rfl

theorem exec_subn (a b : Reg) (s : State) :
    exec (.subn a b) s =
      .next (s.advance.setResultFlag a (s.reg b - s.reg a) (noBorrow (s.reg b) (s.reg a))) := rfl

theorem exec_shr (a b : Reg) (s : State) :
    exec (.shr a b) s = .next (s.advance.setResultFlag a (s.reg a >>> 1) (lowBit (s.reg a))) := rfl

theorem exec_shl (a b : Reg) (s : State) :
    exec (.shl a b) s = .next (s.advance.setResultFlag a (s.reg a <<< 1) (highBit (s.reg a))) := rfl

theorem exec_rnd (a : Reg) (kk : Byte) (s : State) :
    exec (.rnd a kk) s = .next (s.advance.consumeRand.setReg a (s.randIn &&& kk)) := rfl

/-! ## A result and a flag -/

theorem sameRegsBut_advance_setResultFlag (s : State) (a : Reg) (v : Byte) (f : Bool) :
    SameRegsBut [a, VF] s (s.advance.setResultFlag a v f) :=
  fun _ hr => State.setResultFlag_other s.advance (List.ne_of_not_mem_cons hr)
    (List.ne_of_not_mem_cons (List.not_mem_of_not_mem_cons hr)) v f

theorem sameButRegsPc_advance_setResultFlag (s : State) (a : Reg) (v : Byte) (f : Bool) :
    SameButRegsPc s (s.advance.setResultFlag a v f) :=
  ⟨rfl, rfl, rfl, rfl, rfl, rfl, rfl, rfl, fun _ => rfl⟩

/-- What an instruction that writes a result and its flag does, and what it leaves unchanged. -/
theorem exec_writesResultFlag {i : Instr} {s : State} {a : Reg} {v : Byte} {f : Bool}
    (h : exec i s = .next (s.advance.setResultFlag a v f)) :
    ∃ t, exec i s = .next t ∧ (a ≠ VF → t.reg a = v) ∧ t.reg VF = flagByte f ∧ t.pc = s.pc + 2#16 ∧
      SameRegsBut [a, VF] s t ∧ SameButRegsPc s t :=
  ⟨_, h, fun ha => State.setResultFlag_dest _ ha v f, State.setResultFlag_vf _ a v f, rfl,
    sameRegsBut_advance_setResultFlag s a v f, sameButRegsPc_advance_setResultFlag s a v f⟩

theorem flagByte_toNat (f : Bool) : (flagByte f).toNat = f.toNat := by
  cases f <;> rfl

theorem carryOut_toNat (a b : Byte) : (carryOut a b).toNat = (a.toNat + b.toNat) / 256 := by
  have ha := a.isLt
  have hb := b.isLt
  by_cases h : 0xFF < a.toNat + b.toNat
  · rw [(carryOut_iff a b).2 h, Bool.toNat_true]
    omega
  · rw [Bool.eq_false_iff.2 (mt (carryOut_iff a b).1 h), Bool.toNat_false]
    omega

theorem flagByte_noBorrow (p q : Byte) :
    flagByte (noBorrow p q) = if q.toNat ≤ p.toNat then 0x01#8 else 0x00#8 := by
  simp [flagByte, noBorrow]

theorem sub_toNat (p q : Byte) : (p - q).toNat = (p.toNat + 256 - q.toNat) % 256 := by
  have := q.isLt
  rw [BitVec.toNat_sub]
  omega

theorem lowBit_toNat (v : Byte) : (lowBit v).toNat = v.toNat % 2 := by
  rw [lowBit, ← BitVec.testBit_toNat, Nat.toNat_testBit, Nat.pow_zero, Nat.div_one]

theorem highBit_toNat (v : Byte) : (highBit v).toNat = v.toNat / 128 := by
  have := v.isLt
  rw [highBit, ← BitVec.testBit_toNat, Nat.toNat_testBit]
  omega

/-- Settles O30: the byte of the 9-bit sum, and its bit 8. -/
theorem addRegSetsTheCarry : Obligations.AddRegSetsTheCarry := by
  intro a b s
  obtain ⟨t, hexec, hsum, hflag, hframe⟩ := exec_writesResultFlag (exec_addReg a b s)
  refine ⟨decode_encodeWord (.addReg a b), t, hexec, fun ha => ?_, ?_, hframe⟩
  · rw [hsum ha, sumByte_eq_add, BitVec.toNat_add]
  · rw [hflag, flagByte_toNat, carryOut_toNat]

/-- Settles O31: SUB and SUBN are one subtraction with its operands exchanged. -/
theorem subtractsSetTheNoBorrow : Obligations.SubtractsSetTheNoBorrow := by
  intro a b s
  refine ⟨decode_encodeWord (.subReg a b), decode_encodeWord (.subn a b), ?sub, ?subn⟩
  case sub =>
    obtain ⟨t, hexec, hdiff, hflag, hframe⟩ := exec_writesResultFlag (exec_subReg a b s)
    exact ⟨t, hexec, fun ha => by rw [hdiff ha, sub_toNat], by rw [hflag, flagByte_noBorrow], hframe⟩
  case subn =>
    obtain ⟨t, hexec, hdiff, hflag, hframe⟩ := exec_writesResultFlag (exec_subn a b s)
    exact ⟨t, hexec, fun ha => by rw [hdiff ha, sub_toNat], by rw [hflag, flagByte_noBorrow], hframe⟩

/-- Settles O32: a shift by one is a halving or a doubling, and the flag is the lowest or the highest bit. -/
theorem shiftsSetTheBitShiftedOut : Obligations.ShiftsSetTheBitShiftedOut := by
  intro a b s
  refine ⟨decode_encodeWord (.shr a b), decode_encodeWord (.shl a b), ?shr, ?shl⟩
  case shr =>
    obtain ⟨t, hexec, hhalf, hflag, hframe⟩ := exec_writesResultFlag (exec_shr a b s)
    refine ⟨t, hexec, fun ha => ?_, by rw [hflag, flagByte_toNat, lowBit_toNat], hframe⟩
    rw [hhalf ha, BitVec.toNat_ushiftRight, Nat.shiftRight_eq_div_pow, Nat.pow_one]
  case shl =>
    obtain ⟨t, hexec, hdouble, hflag, hframe⟩ := exec_writesResultFlag (exec_shl a b s)
    refine ⟨t, hexec, fun ha => ?_, by rw [hflag, flagByte_toNat, highBit_toNat], hframe⟩
    rw [hdouble ha, BitVec.toNat_shiftLeft, Nat.shiftLeft_eq, Nat.pow_one, Nat.mul_comm]

/-! ## The random byte -/

theorem State.randIn_cons {s : State} {r : Byte} {rest : List Byte} (h : s.rand.pending = r :: rest) :
    s.randIn = r := by
  rw [State.randIn, h]

theorem State.randIn_nil {s : State} (h : s.rand.pending = []) : s.randIn = Config.freeRandByte s.rand.count := by
  rw [State.randIn, h]

theorem sameAlways_advance_consumeRand_setReg (s : State) (a : Reg) (v : Byte) :
    SameAlways s (s.advance.consumeRand.setReg a v) :=
  ⟨rfl, rfl, rfl, rfl, fun _ => rfl⟩

/-- Settles O34: the oldest byte of the queue, or the free value when there is none, is masked and consumed. -/
theorem rndMasksOneFreshByte : Obligations.RndMasksOneFreshByte := by
  intro a kk s
  have hmasked : (s.advance.consumeRand.setReg a (s.randIn &&& kk)).reg a = s.randIn &&& kk :=
    State.reg_setReg_same _ a _
  refine ⟨decode_encodeWord (.rnd a kk), _, exec_rnd a kk s, fun r rest h => ⟨?_, ?_⟩, fun h => ⟨?_, ?_⟩, rfl, ?_, rfl,
    fun _ hr => State.reg_setReg_ne _ (List.ne_of_not_mem_cons hr) _, rfl, rfl, rfl,
    sameAlways_advance_consumeRand_setReg s a _⟩
  · rw [hmasked, State.randIn_cons h]
  · simp [h]
  · rw [hmasked, State.randIn_nil h]
  · simp [h]
  · rw [hmasked, BitVec.and_assoc, BitVec.and_not_self]
    exact BitVec.and_zero

/-- Settles O35: the first draw consumes the first byte, and leaves the second for the next. -/
theorem twoDrawsConsumeTwoBytes : Obligations.TwoDrawsConsumeTwoBytes := by
  intro a b kk ll r q rest s hab h
  have hnext : (s.advance.consumeRand.setReg a (s.randIn &&& kk)).rand.pending = q :: rest := by simp [h]
  refine ⟨_, _, exec_rnd a kk s, exec_rnd b ll _, ?_, ?_, by simp [h]⟩
  · rw [State.reg_setReg_ne _ hab, State.randIn_cons h]
    simp
  · rw [State.randIn_cons hnext, State.reg_setReg_same]

end Sys2Proof.Machine
end

section
/-! More of the draw (42_display.md R171 to R176), the packed view of the framebuffer (10_state.md R29), and the byte a
sprite row leaves in it. -/

namespace Sys2Proof.Machine

/-! ## DRW out of range, of height 0, and twice -/

theorem exec_drw_outOfRange (a b : Reg) {n : Nibble} {k : Nat} {s : State} (hk : k < n.toNat)
    (hbad : memSize ≤ s.i.toNat + k) (hfirst : ∀ m, m < k → s.i.toNat + m < memSize) :
    exec (.drw a b n) s = .next (s.raise (.outOfRange s.pc (s.i.toNat + k))) := by
  have hcheck : firstBadSprite s.i (rowCount n) = some (s.i.toNat + k) :=
    firstBadFrom_some.2 ⟨k, hk, hbad, hfirst, rfl⟩
  simp [exec, execDrw, hcheck]

/-- Settles O38: the check before the draw finds the first bad address. -/
theorem drwOutOfRangeChangesNothing : Obligations.DrwOutOfRangeChangesNothing :=
  fun a b _ _ _ hk hbad hfirst => exec_drw_outOfRange a b hk hbad hfirst

theorem spriteInRange_zero (s : State) : SpriteInRange s 0#4 := fun k hk => absurd hk (Nat.not_lt_zero k)

/-- Settles O39: a sprite without rows is in range, and drawing it changes no pixel. -/
theorem drwOfHeightZeroOnlyClearsTheFlag : Obligations.DrwOfHeightZeroOnlyClearsTheFlag :=
  fun a b s => ⟨_, exec_drw (spriteInRange_zero s) a b, State.reg_setReg_same _ VF _, rfl,
    fun _ hr => State.reg_setReg_ne _ (List.ne_of_not_mem_cons hr) _, rfl, rfl, rfl, rfl, rfl, rfl, rfl, rfl,
    fun _ => rfl⟩

/-- The pixels under a sprite depend on the coordinates, on `I` and on memory. -/
theorem underSprite_congr {s t : State} {a b : Reg} (ha : t.reg a = s.reg a) (hb : t.reg b = s.reg b) (hi : t.i = s.i)
    (hmem : SameMemory s t) (n : Nibble) (px : Col) (py : Row) :
    UnderSprite t a b n px py ↔ UnderSprite s a b n px py := by
  simp only [UnderSprite, ha, hb, hi, hmem _]

/-- Settles O40: both draws flip the same pixels, and the second one finds lit what the first one found unlit. -/
theorem drawingTwiceRestoresTheFramebuffer : Obligations.DrawingTwiceRestoresTheFramebuffer := by
  intro a b n s t u ha hb hrange ht hu
  obtain ⟨t', ht', htpixel, -, -, -, htregs, hti, -, -, -, -, -, -, htmem⟩ :=
    (drwXorsTheSpriteAndReportsCollision a b n s).2 hrange
  obtain rfl : t' = t := Host.Outcome.next.inj (ht'.symm.trans ht)
  have hrange' : SpriteInRange t' n := by rwa [SpriteInRange, hti]
  obtain ⟨u', hu', hupixel, huhit, humiss, -⟩ := (drwXorsTheSpriteAndReportsCollision a b n t').2 hrange'
  obtain rfl : u' = u := Host.Outcome.next.inj (hu'.symm.trans hu)
  have hunder := underSprite_congr (htregs a (by simpa using ha)) (htregs b (by simpa using hb)) hti htmem n
  simp only [hunder] at hupixel huhit humiss
  refine ⟨frame_ext fun px py => ?_, fun ⟨px, py, hpx, hunlit⟩ => huhit ⟨px, py, ?_, hpx⟩, fun hlit => humiss ?_⟩
  · have hflip := hupixel px py
    rw [htpixel] at hflip
    exact Bool.eq_iff_iff.2 (by tauto)
  · simp [htpixel, hunlit, hpx]
  · rintro ⟨px, py, hpixel, hpx⟩
    exact ((htpixel px py).1 hpixel).1 (hlit px py hpx) hpx

/-! ## The packed view -/

/-- Bit `7 - j` of byte `k` of the view is pixel `8k + j` of the row-major order (R29, D10). -/
theorem getLsbD_fbByte (fb : Frame) {k : BitVec 8} {j : Nat} {px : Col} {py : Row} (hj : j < 8)
    (hlinear : py.val * 64 + px.val = 8 * k.toNat + j) : (fbByte fb k).getLsbD (7 - j) = pixelAt fb px py := by
  have hcol : px.val = 8 * (k.toNat % 8) + j := by omega
  have hrow : py.val = k.toNat / 8 := by omega
  simp only [fbByte, pixelAt, BitVec.getLsbD_reverse, BitVec.getMsbD_eq_getLsbD, BitVec.getLsbD_extractLsb', hcol,
    Fin.getElem_fin, hrow]
  simp [show 7 - j < 8 by omega, show 7 - (7 - j) = j by omega, hj]

theorem State.reply_fbRd (s : State) (k : BitVec 8) : s.reply (.fbRd k) = .byte (fbByte s.fb k) := rfl

/-- Settles O48: the view reads the frame's own bits, and a read is one of the transactions that keep the state. -/
theorem framebufferViewIsPackedMsbFirst : Obligations.FramebufferViewIsPackedMsbFirst :=
  fun s k => ⟨⟨_, s.reply_fbRd k, fun _ _ _ hj hlinear => getLsbD_fbByte s.fb hj hlinear⟩, rfl, rfl, rfl⟩

/-- On its own line, from a column that is a multiple of 8, a sprite of one row lies over the pixels of one byte of the
view: pixel `j` of that byte is under the sprite when bit `7 - j` of the sprite byte is set. -/
theorem underSprite_aligned_iff {s : State} {a b : Reg} (haligned : (s.reg a).toNat % 8 = 0) {px : Col} {py : Row}
    {j : Nat} (hj : j < 8) (hpx : px.val = (s.reg a).toNat % 64 + j) (hpy : py.val = (s.reg b).toNat % 32) :
    UnderSprite s a b 1#4 px py ↔ (s.byteAt s.i.toNat).getLsbD (7 - j) = true := by
  constructor
  · rintro ⟨k, l, hk, hl, hbit, hcol, -⟩
    obtain rfl : k = 0 := Nat.lt_one_iff.1 hk
    obtain rfl : l = j := by omega
    exact hbit
  · exact fun hbit => ⟨0, j, Nat.one_pos, hj, hbit, by omega, hpy⟩

/-- Settles O49: on a clear row the pixels under the sprite are those it lights, bit by bit those of its byte. -/
theorem alignedSpriteByteReadsBackAsItself : Obligations.AlignedSpriteByteReadsBackAsItself := by
  intro a b s t k hi haligned hclear hk hexec
  have hrange : SpriteInRange s 1#4 := fun m hm => by
    obtain rfl : m = 0 := Nat.lt_one_iff.1 hm
    exact hi
  obtain ⟨t', ht', hpixel, -⟩ := (drwXorsTheSpriteAndReportsCollision a b 1#4 s).2 hrange
  obtain rfl : t' = t := Host.Outcome.next.inj (ht'.symm.trans hexec)
  have hbyte : fbByte t'.fb k = s.byteAt s.i.toNat := by
    apply BitVec.eq_of_getLsbD_eq
    intro bit hbit
    obtain ⟨j, hj, rfl⟩ : ∃ j, j < 8 ∧ bit = 7 - j := ⟨7 - bit, by omega, by omega⟩
    obtain ⟨px, hpx⟩ : ∃ px : Col, px.val = (s.reg a).toNat % 64 + j := ⟨⟨_, by omega⟩, rfl⟩
    obtain ⟨py, hpy⟩ : ∃ py : Row, py.val = (s.reg b).toNat % 32 := ⟨⟨_, by omega⟩, rfl⟩
    rw [getLsbD_fbByte t'.fb hj (px := px) (py := py) (by omega), Bool.eq_iff_iff,
      ← underSprite_aligned_iff haligned hj hpx hpy]
    refine (hpixel px py).trans ?_
    simp [hclear px py hpy]
  rw [State.reply_fbRd, hbyte]

end Sys2Proof.Machine
end

section
/-! The step as equations (30_encoding.md R74), one for each of its branches, and what follows of the faults: their
order, their reasons, and that taking one changes the latch alone (60_exceptions.md R200 to R203). -/

namespace Sys2Proof.Machine

/-! ## The fetch -/

theorem State.fetch_ok {s : State} (h : s.pc.toNat + 1 < memSize) :
    s.fetch = .ok (wordOfBytes (s.byteAt s.pc.toNat) (s.byteAt (s.pc.toNat + 1))) := by
  rw [State.fetch, State.memRead_ok (Nat.lt_of_succ_lt h), State.memRead_ok h]

theorem State.fetch_past {s : State} (h : memSize ≤ s.pc.toNat) :
    s.fetch = .error (.outOfRange s.pc s.pc.toNat) := by
  rw [State.fetch, State.memRead_error h]

theorem State.fetch_last {s : State} (h : s.pc.toNat = 4095) : s.fetch = .error (.outOfRange s.pc 4096) := by
  rw [State.fetch, State.memRead_ok (by rw [h]; decide), State.memRead_error (by rw [h]), h]

/-! ## The branches of the step -/

theorem step_latched {s : State} {f : Fault} (h : s.fault = some f) : step s = .fault f := by
  simp [step, h]

theorem step_fetchError {s : State} {f : Fault} (h : s.fault = none) (hfetch : s.fetch = .error f) :
    step s = .next (s.raise f) := by
  simp [step, h, hfetch]

theorem step_invalid {s : State} {w : Word} (h : s.fault = none) (hfetch : s.fetch = .ok w)
    (hdecode : decode w = none) : step s = .next (s.raise (.invalidOpcode s.pc w)) := by
  simp [step, h, hfetch, hdecode]

theorem step_decoded {s : State} {w : Word} {i : Instr} (h : s.fault = none) (hfetch : s.fetch = .ok w)
    (hdecode : decode w = some i) : step s = exec i s := by
  simp [step, h, hfetch, hdecode]

/-- Settles O11: the fetch answers the two bytes' word, and the step is its instruction. -/
theorem stepRunsTheDecodedInstruction : Obligations.StepRunsTheDecodedInstruction :=
  fun _ _ _ h hpc hdecode => step_decoded h (State.fetch_ok hpc) (decodeBytes_cons_cons_eq_ok.1 hdecode)

/-- `exec` is total: each instruction answers a next state. -/
theorem exec_answers (i : Instr) (s : State) : ∃ t, exec i s = .next t := by
  cases i
  case ret =>
    cases h : s.stack with
    | nil => exact ⟨_, exec_ret_nil h⟩
    | cons top rest => exact ⟨_, exec_ret_cons h⟩
  all_goals exact ⟨_, rfl⟩

/-- Settles O16: each branch of the step answers the latched fault, a fault taken, or what `exec` answers. -/
theorem everyInstructionAndStepAnswers : Obligations.EveryInstructionAndStepAnswers := by
  refine ⟨exec_answers, fun s => ?_⟩
  cases hlatch : s.fault with
  | some f => exact .inr ⟨f, rfl, step_latched hlatch⟩
  | none =>
    left
    cases hfetch : s.fetch with
    | error f => exact ⟨_, step_fetchError hlatch hfetch⟩
    | ok w =>
      cases hdecode : decode w with
      | none => exact ⟨_, step_invalid hlatch hfetch hdecode⟩
      | some i =>
        rw [step_decoded hlatch hfetch hdecode]
        exact exec_answers i s

/-! ## The faults a step takes -/

/-- Settles O12: the branches of the step, and of the three instructions that take a fault. -/
theorem faultChecksRunInOrder : Obligations.FaultChecksRunInOrder := by
  intro s
  refine ⟨fun f => step_latched, fun h hpc => step_fetchError h (State.fetch_past hpc),
    fun h hpc => step_fetchError h (State.fetch_last hpc), fun h hpc w hw => ?_⟩
  have hfetch : s.fetch = .ok w := hw ▸ State.fetch_ok (show s.pc.toNat + 1 < 4096 by omega)
  refine ⟨step_invalid h hfetch, fun hdecode hstack => ?_, fun nnn hdecode hfull => ?_,
    fun a b n k hdecode hk hbad hfirst => ?_⟩ <;> rw [step_decoded h hfetch hdecode]
  · exact exec_ret_nil hstack
  · exact exec_call_full nnn hfull
  · exact exec_drw_outOfRange a b hk hbad hfirst

/-- A step that latches a fault takes it: the state is the one before with the latch set (R201). -/
theorem eq_raise_of_step {s t : State} {f : Fault} (h : step s = .next t) (hf : t.fault = some f) : t = s.raise f := by
  have raised : ∀ {g}, t = s.raise g → t = s.raise f := fun {g} ht => by
    obtain rfl : g = f := by simpa [ht] using hf
    exact ht
  obtain ⟨hlatch, ⟨_, -, ht⟩ | ⟨_, -, -, ht⟩ | ⟨_, i, -, -, hexec⟩⟩ := step_cases h
  · exact raised ht
  · exact raised ht
  · obtain hsame | ⟨-, -, ht⟩ | ⟨-, -, ht⟩ | ⟨_, _, _, _, -, -, -, -, ht⟩ := exec_cases hexec
    · simp [hf, hlatch] at hsame
    · exact raised ht
    · exact raised ht
    · exact raised ht

/-- Settles O13: the reasons are those of the fetch, of the decoder and of the three instructions that take a fault. -/
theorem faultsAreLatchedOnlyForTheirReasons : Obligations.FaultsAreLatchedOnlyForTheirReasons := by
  intro s t f h hf
  have same : ∀ {g}, t = s.raise g → f = g := fun {g} ht => by simpa [ht, eq_comm] using hf
  obtain ⟨hlatch, hcases⟩ := step_cases h
  obtain ⟨hpc, hfetch⟩ | ⟨hpc, hfetch⟩ | ⟨hpc, hfetch⟩ := s.fetch_cases <;> rw [hfetch] at hcases
  · obtain ⟨_, ⟨⟩, ht⟩ | ⟨_, ⟨⟩, -⟩ | ⟨_, _, ⟨⟩, -⟩ := hcases
    exact .inl ⟨hpc, same ht⟩
  · obtain ⟨_, ⟨⟩, ht⟩ | ⟨_, ⟨⟩, -⟩ | ⟨_, _, ⟨⟩, -⟩ := hcases
    exact .inr (.inl ⟨Nat.succ.inj hpc, (same ht).trans (by rw [hpc])⟩)
  · refine .inr (.inr ⟨Nat.lt_of_succ_lt_succ hpc, _, rfl, ?_⟩)
    obtain ⟨_, ⟨⟩, -⟩ | ⟨_, ⟨⟩, hdecode, ht⟩ | ⟨_, i, ⟨⟩, hdecode, hexec⟩ := hcases
    · exact .inl ⟨hdecode, same ht⟩
    · obtain hsame | ⟨rfl, hstack, ht⟩ | ⟨⟨nnn, rfl⟩, hfull, ht⟩ | ⟨a, b, n, k, rfl, hk, hbad, hfirst, ht⟩ :=
        exec_cases hexec
      · simp [hf, hlatch] at hsame
      · exact .inr (.inl ⟨hdecode, hstack, same ht⟩)
      · exact .inr (.inr (.inl ⟨⟨nnn, hdecode⟩, hfull, same ht⟩))
      · exact .inr (.inr (.inr ⟨a, b, n, k, hdecode, hk, hbad, hfirst, same ht⟩))

/-- Every reason records the address of the faulting instruction (R201). -/
theorem pc0_of_step {s t : State} {f : Fault} (h : step s = .next t) (hf : t.fault = some f) : f.pc0 = s.pc := by
  obtain ⟨-, rfl⟩ | ⟨-, rfl⟩ | ⟨-, w, -, ⟨-, rfl⟩ | ⟨-, -, rfl⟩ | ⟨-, -, rfl⟩ | ⟨_, _, _, _, -, -, -, -, rfl⟩⟩ :=
    faultsAreLatchedOnlyForTheirReasons s t f h hf <;> rfl

theorem State.afterStep_of_next {s t : State} (h : step s = .next t) : s.afterStep = t := by
  rw [State.afterStep, h]

theorem State.afterStep_of_latched {s : State} {f : Fault} (h : s.fault = some f) : s.afterStep = s := by
  rw [State.afterStep, step_latched h]

/-- Settles O14: the step takes the fault, which leaves the random port, and the status is read from the latch. -/
theorem takingAFaultChangesOnlyTheLatch : Obligations.TakingAFaultChangesOnlyTheLatch := by
  intro s t f h hf
  have ht := eq_raise_of_step h hf
  refine ⟨ht, pc0_of_step h hf, ?_⟩
  have hafter : s.afterStep = s.raise f := (State.afterStep_of_next h).trans ht
  simp [State.reply, hafter, statusOf]

end Sys2Proof.Machine
end

section
/-! What the host can change (60_exceptions.md R210), and that a latched fault holds until reset (R202). -/

namespace Sys2Proof.Machine

/-- The fields of the core that no transaction but a reset or a step writes (R210, D8). -/
structure SameForHost (s t : State) : Prop where
  regs : SameRegs s t
  index : t.i = s.i
  pc : t.pc = s.pc
  stack : t.stack = s.stack
  frame : t.fb = s.fb
  latch : t.fault = s.fault

theorem SameForHost.refl (s : State) : SameForHost s s := ⟨fun _ => rfl, rfl, rfl, rfl, rfl, rfl⟩

theorem SameForHost.trans {s t u : State} (h : SameForHost s t) (h' : SameForHost t u) : SameForHost s u where
  regs := fun r => (h'.regs r).trans (h.regs r)
  index := h'.index.trans h.index
  pc := h'.pc.trans h.pc
  stack := h'.stack.trans h.stack
  frame := h'.frame.trans h.frame
  latch := h'.latch.trans h.latch

theorem State.load_sameForHost (s : State) (org : Nat) (img : List Byte) : SameForHost s (s.load org img) := by
  rw [State.load]
  split
  · exact ⟨fun _ => rfl, rfl, rfl, rfl, rfl, rfl⟩
  · exact .refl s

theorem State.after_sameForHost (s : State) {tr : Transaction} (hrst : tr ≠ .rst) (hstep : tr ≠ .stepReq) :
    SameForHost s (s.after tr) := by
  cases tr
  case rst => exact absurd rfl hrst
  case stepReq => exact absurd rfl hstep
  case load org img => exact s.load_sameForHost org img
  all_goals exact ⟨fun _ => rfl, rfl, rfl, rfl, rfl, rfl⟩

theorem State.afterStep_config (s : State) : s.afterStep.config = s.config := by
  rw [State.afterStep]
  split
  · exact step_config ‹_›
  all_goals rfl

/-- No transaction changes the parameter (10_state.md R20). -/
theorem State.after_config (s : State) (tr : Transaction) : (s.after tr).config = s.config := by
  cases tr
  case stepReq => exact s.afterStep_config
  case load org img =>
    rw [State.after, State.load]
    split <;> rfl
  all_goals rfl

/-- Settles O50: a timer write writes one field, and what else the host can do is `State.after_sameForHost`. -/
theorem hostWritesOnlyTimersMemoryAndRandomBytes : Obligations.HostWritesOnlyTimersMemoryAndRandomBytes := by
  refine fun s d tr => ⟨rfl, rfl, rfl, rfl, s.after_config tr, fun hrst hstep => ?_⟩
  obtain ⟨hregs, hi, hpc, hstack, hfb, hlatch⟩ := s.after_sameForHost hrst hstep
  exact ⟨hregs, hi, hpc, hstack, hfb, hlatch⟩

/-- A step request with a fault latched changes nothing, so no transaction but a reset moves the core (R202). -/
theorem State.after_sameForHost_of_latched {s : State} {f : Fault} (h : s.fault = some f) {tr : Transaction}
    (hrst : tr ≠ .rst) : SameForHost s (s.after tr) := by
  by_cases hstep : tr = .stepReq
  · subst hstep
    rw [State.after, State.afterStep_of_latched h]
    exact .refl s
  · exact s.after_sameForHost hrst hstep

theorem State.afterAll_sameForHost_of_latched {s : State} {f : Fault} (h : s.fault = some f) {ts : List Transaction}
    (hrst : Transaction.rst ∉ ts) : SameForHost s (s.afterAll ts) := by
  induction ts generalizing s with
  | nil => exact .refl s
  | cons tr ts ih =>
    have hfirst := State.after_sameForHost_of_latched h (List.ne_of_not_mem_cons hrst).symm
    exact hfirst.trans (ih (hfirst.latch.trans h) (List.not_mem_of_not_mem_cons hrst))

/-- Settles O15: each transaction but a reset keeps the latch, so the next one meets it again. -/
theorem aLatchedFaultHoldsUntilReset : Obligations.ALatchedFaultHoldsUntilReset := by
  refine fun s f h => ⟨step_latched h, State.afterStep_of_latched h, fun ts hrst => ?_, rfl⟩
  obtain ⟨hregs, hi, hpc, hstack, hfb, hlatch⟩ := State.afterAll_sameForHost_of_latched h hrst
  exact ⟨hlatch.trans h, hregs, hi, hpc, hstack, hfb⟩

/-! ## Reset -/

/-- Settles O1: the fields of reset, one by one. -/
theorem resetLeavesEveryFieldAtItsValue : Obligations.ResetLeavesEveryFieldAtItsValue :=
  ⟨fun addr _ => State.reset_byteAt addr, State.reset_reg, rfl, rfl, rfl, rfl, rfl, pixelAt_clearFrame, rfl, rfl⟩

/-- Settles O51: the transaction writes the whole record of the core and nothing beside it. -/
theorem rstRepeatsCreation : Obligations.RstRepeatsCreation := by
  rintro s _ rfl
  exact ⟨s.rst_byteAt, s.rst_reg, rfl, rfl, rfl, rfl, rfl, pixelAt_clearFrame, rfl, rfl, rfl⟩

end Sys2Proof.Machine
end

section
/-! What the host has put in memory at `pc` is what the next step runs (20_memory.md R60, 70_reset_and_hazards.md R232,
log entry 6). -/

namespace Sys2Proof.Machine

/-- A word written at `pc`, upper byte first, is fetched from there. -/
theorem State.fetch_writeRun {s t : State} {w : Word} (hm : s.mem.wf)
    (hmem : t.mem = s.mem.writeRun t.pc.toNat [upperByte w, lowerByte w]) (hpc : t.pc.toNat + 1 < memSize) :
    t.fetch = .ok w := by
  have hread : ∀ k (hk : k < 2), t.byteAt (t.pc.toNat + k) = [upperByte w, lowerByte w][k] := fun k hk => by
    rw [State.byteAt, hmem, Memory.read_writeRun_inside hm hpc hk]
  rw [State.fetch_ok hpc, show t.byteAt t.pc.toNat = upperByte w from hread 0 (by decide), hread 1 (by decide)]
  exact congrArg _ (wordOfBytes_upperByte_lowerByte w)

/-- Settles O46: the load writes the instruction's word at `pc`. -/
theorem aLoadIsSeenByTheNextFetch : Obligations.ALoadIsSeenByTheNextFetch := by
  intro s i hm hfault hpc
  rw [s.load_of_fits (show s.pc.toNat + (encode i).length ≤ memSize from hpc)]
  exact step_decoded hfault (State.fetch_writeRun hm rfl hpc) (decode_encodeWord i)

theorem State.fetchAddr_inRange (s : State) : s.fetchAddr.toNat + 1 < memSize := by
  rw [State.fetchAddr]
  split
  · assumption
  · decide

theorem decodeTableWord_eq_decode (nbits w : Nat) :
    decodeTableWord nbits w = decode (BitVec.ofNat 16 (w % 2 ^ nbits)) := by
  simp only [decodeTableWord, decodeBytes, wordOfBytes_upperByte_lowerByte]
  cases decode (BitVec.ofNat 16 (w % 2 ^ nbits)) <;> rfl

/-- Settles O52: the placement writes the word at the address that the next step fetches from. -/
theorem aPlacedWordIsTheNextInstruction : Obligations.APlacedWordIsTheNextInstruction :=
  fun s w _ hm hdecode =>
    have hword := (decodeTableWord_eq_decode 16 w).symm.trans hdecode
    step_decoded rfl (State.fetch_writeRun hm rfl s.fetchAddr_inRange) hword

end Sys2Proof.Machine
end

section
/-! The end of a run (70_reset_and_hazards.md R237, D15): a good end steps to itself, and a run under fuel stops at the
first end. -/

namespace Sys2Proof.Machine

/-! ## A self-jump -/

theorem decode_jp_of_opField {w : Word} (h : opField w = 0x1#4) : decode w = some (.jp (nnnField w)) := by
  simp [decode, h]

/-- A good end is a state with no fault whose next instruction jumps to `pc`. -/
theorem State.goodEnd_spec {s : State} (h : s.goodEnd = true) :
    s.fault = none ∧ ∃ w nnn, s.fetch = .ok w ∧ decode w = some (.jp nnn) ∧ addr16 nnn = s.pc := by
  rw [State.goodEnd, Bool.and_eq_true, Option.isNone_iff_eq_none, State.selfJump] at h
  obtain ⟨hfault, hjump⟩ := h
  refine ⟨hfault, ?_⟩
  split at hjump
  · obtain ⟨hop, hnnn⟩ := of_decide_eq_true hjump
    exact ⟨_, _, ‹_›, decode_jp_of_opField hop, hnnn⟩
  · cases hjump

theorem step_of_goodEnd {s : State} (h : s.goodEnd = true) : step s = .next s := by
  obtain ⟨hfault, w, nnn, hfetch, hdecode, hpc⟩ := State.goodEnd_spec h
  rw [step_decoded hfault hfetch hdecode, exec_jp, hpc]
  rfl

theorem State.afterSteps_succ (s : State) (n : Nat) : s.afterSteps (n + 1) = s.afterStep.afterSteps n := rfl

/-- Settles O25: the jump goes to the `pc` it is at. -/
theorem aSelfJumpStepsToItself : Obligations.ASelfJumpStepsToItself := by
  refine fun s h => ⟨step_of_goodEnd h, fun n => ?_⟩
  induction n with
  | zero => rfl
  | succ n ih => rw [State.afterSteps_succ, State.afterStep_of_next (step_of_goodEnd h), ih]

/-! ## A run under fuel -/

/-- None of the first `n` states of a run is an end. -/
def State.NoEndBefore (s : State) (n : Nat) : Prop :=
  ∀ m, m < n → (s.afterSteps m).goodEnd = false ∧ (s.afterSteps m).badEnd = false

theorem State.noEndBefore_zero (s : State) : s.NoEndBefore 0 := fun m hm => absurd hm (Nat.not_lt_zero m)

theorem State.NoEndBefore.cons {s : State} {n : Nat} (hgood : s.goodEnd = false) (hbad : s.badEnd = false)
    (h : s.afterStep.NoEndBefore n) : s.NoEndBefore (n + 1)
  | 0, _ => ⟨hgood, hbad⟩
  | m + 1, hm => h m (Nat.lt_of_succ_lt_succ hm)

/-- How a run of at most `fuel` steps from `s` may end (R237): at its first end, or out of fuel. -/
inductive EndsAs (fuel : Nat) (s : State) : RunEnd → Prop
  | bad {n : Nat} (hn : n ≤ fuel) (hfirst : s.NoEndBefore n) (hend : (s.afterSteps n).badEnd = true) :
      EndsAs fuel s (.bad (s.afterSteps n))
  | good {n : Nat} (hn : n ≤ fuel) (hfirst : s.NoEndBefore n) (hend : (s.afterSteps n).goodEnd = true) :
      EndsAs fuel s (.good (s.afterSteps n))
  | outOfFuel (hnone : s.NoEndBefore (fuel + 1)) : EndsAs fuel s (.outOfFuel (s.afterSteps fuel))

/-- One more step before the run, from a state that is no end. -/
theorem EndsAs.cons {fuel : Nat} {s : State} {e : RunEnd} (hgood : s.goodEnd = false) (hbad : s.badEnd = false)
    (h : EndsAs fuel s.afterStep e) : EndsAs (fuel + 1) s e := by
  cases h with
  | bad hn hfirst hend => exact .bad (n := _ + 1) (Nat.succ_le_succ hn) (hfirst.cons hgood hbad) hend
  | good hn hfirst hend => exact .good (n := _ + 1) (Nat.succ_le_succ hn) (hfirst.cons hgood hbad) hend
  | outOfFuel hnone => exact .outOfFuel (hnone.cons hgood hbad)

theorem runToEnd_endsAs (fuel : Nat) (s : State) : EndsAs fuel s (State.runToEnd fuel s) := by
  induction fuel generalizing s with
  | zero =>
    rw [State.runToEnd]
    split
    · exact .bad (n := 0) le_rfl s.noEndBefore_zero ‹_›
    · split
      · exact .good (n := 0) le_rfl s.noEndBefore_zero ‹_›
      · exact .outOfFuel (s.afterStep.noEndBefore_zero.cons (by simpa using ‹¬ s.goodEnd = true›)
          (by simpa using ‹¬ s.badEnd = true›))
  | succ fuel ih =>
    rw [State.runToEnd]
    split
    · exact .bad (n := 0) (Nat.zero_le _) s.noEndBefore_zero ‹_›
    · split
      · exact .good (n := 0) (Nat.zero_le _) s.noEndBefore_zero ‹_›
      · exact (ih s.afterStep).cons (by simpa using ‹¬ s.goodEnd = true›) (by simpa using ‹¬ s.badEnd = true›)

/-- Settles O26: each report of a run is one of the ways it may end. -/
theorem runsEndAtTheirFirstEnd : Obligations.RunsEndAtTheirFirstEnd := by
  intro fuel s t
  have hends := runToEnd_endsAs fuel s
  refine ⟨fun h => ?_, fun h => ?_, fun h => ?_⟩ <;> rw [h] at hends
  · obtain ⟨⟩ | ⟨hn, hfirst, hend⟩ := hends
    exact ⟨_, hn, rfl, hend, hfirst⟩
  · obtain ⟨hn, hfirst, hend⟩ := hends
    exact ⟨_, hn, rfl, hend, hfirst⟩
  · obtain ⟨⟩ | ⟨⟩ | ⟨hnone⟩ := hends
    exact ⟨rfl, fun m hm => hnone m (Nat.lt_succ_of_le hm)⟩

end Sys2Proof.Machine
end

section
/-! What an instruction can do to the whole state, said once (30_encoding.md R75): it takes a fault, moves `pc`, writes
registers, or is one of the six that write another field. -/

namespace Sys2Proof.Machine

/-- What an instruction can answer from `s`. -/
inductive Effect (s : State) : Instr → State → Prop
  /-- a fault taken, which tells the truth about the state it leaves (R201) -/
  | fault {i : Instr} {f : Fault} (h : (s.raise f).faultTruthful) : Effect s i (s.raise f)
  /-- a jump, at most to the largest target of Bnnn (10_state.md R32) -/
  | jump {i : Instr} {p : Word} (h : p.toNat ≤ 0x10FE) : Effect s i (s.setPc p)
  /-- a skip taken or not -/
  | skip {i : Instr} {p : Word} (h : p = s.pc + 4#16 ∨ p = s.pc + 2#16) : Effect s i (s.setPc p)
  | result {i : Instr} (a : Reg) (v : Byte) : Effect s i (s.advance.setReg a v)
  | resultFlag {i : Instr} (a : Reg) (v : Byte) (f : Bool) : Effect s i (s.advance.setResultFlag a v f)
  | ret {top : Word} {rest : List Word} (h : s.stack = top :: rest) : Effect s .ret ((s.setStack rest).setPc top)
  | call (nnn : Addr12) (h : s.config.stackLimit ≠ some s.stack.length) :
      Effect s (.call nnn) ((s.push (s.pc + 2#16)).setPc (addr16 nnn))
  | ldI (nnn : Addr12) : Effect s (.ldI nnn) (s.advance.setI (addr16 nnn))
  | rnd (a : Reg) (kk v : Byte) : Effect s (.rnd a kk) (s.advance.consumeRand.setReg a v)
  | cls : Effect s .cls (s.advance.setFb clearFrame)
  | drw (a b : Reg) (n : Nibble) (fb : Frame) (f : Bool) :
      Effect s (.drw a b n) ((s.advance.setFb fb).setReg VF (flagByte f))

/-- Everything RET can answer (R101). -/
theorem exec_ret_cases {s t : State} (h : exec .ret s = .next t) :
    (s.stack = [] ∧ t = s.raise (.stackUnderflow s.pc)) ∨
      ∃ top rest, s.stack = top :: rest ∧ t = (s.setStack rest).setPc top := by
  cases hstack : s.stack with
  | nil =>
    rw [exec_ret_nil hstack] at h
    exact .inl ⟨rfl, (Host.Outcome.next.inj h).symm⟩
  | cons top rest =>
    rw [exec_ret_cons hstack] at h
    exact .inr ⟨top, rest, rfl, (Host.Outcome.next.inj h).symm⟩

/-- Everything CALL can answer (R103). -/
theorem exec_call_cases {nnn : Addr12} {s t : State} (h : exec (.call nnn) s = .next t) :
    (s.config.stackLimit = some s.stack.length ∧ t = s.raise (.stackOverflow s.pc)) ∨
      (s.config.stackLimit ≠ some s.stack.length ∧ t = (s.push (s.pc + 2#16)).setPc (addr16 nnn)) := by
  by_cases hfull : s.config.stackLimit = some s.stack.length
  · rw [exec_call_full nnn hfull] at h
    exact .inl ⟨hfull, (Host.Outcome.next.inj h).symm⟩
  · rw [exec_call_room nnn hfull] at h
    exact .inr ⟨hfull, (Host.Outcome.next.inj h).symm⟩

/-- Everything DRW can answer (R171, R174). -/
theorem exec_drw_cases {a b : Reg} {n : Nibble} {s t : State} (h : exec (.drw a b n) s = .next t) :
    (SpriteInRange s n ∧ t = (s.advance.setFb (s.drawn a b n).fb).setReg VF (flagByte (s.drawn a b n).collide)) ∨
      ∃ k, k < n.toNat ∧ memSize ≤ s.i.toNat + k ∧ (∀ m, m < k → s.i.toNat + m < memSize) ∧
        t = s.raise (.outOfRange s.pc (s.i.toNat + k)) := by
  cases hcheck : firstBadSprite s.i (rowCount n) with
  | none =>
    have hrange : SpriteInRange s n := firstBadFrom_none.1 hcheck
    rw [exec_drw hrange] at h
    exact .inl ⟨hrange, (Host.Outcome.next.inj h).symm⟩
  | some bad =>
    obtain ⟨k, hk, hbad, hfirst, -⟩ := firstBadFrom_some.1 hcheck
    rw [exec_drw_outOfRange a b hk hbad hfirst] at h
    exact .inr ⟨k, hk, hbad, hfirst, (Host.Outcome.next.inj h).symm⟩

theorem addr16_le (nnn : Addr12) : (addr16 nnn).toNat ≤ 0xFFF := by
  rw [addr16_toNat]
  exact Nat.le_of_lt_succ nnn.isLt

theorem jpV0_target_le (v : Byte) (nnn : Addr12) : (word16 v + addr16 nnn).toNat ≤ 0x10FE := by
  have := v.isLt
  have := nnn.isLt
  rw [jpV0_target_toNat]
  omega

theorem exec_effect {i : Instr} {s t : State} (h : exec i s = .next t) : Effect s i t := by
  cases i
  case ret =>
    obtain ⟨hstack, rfl⟩ | ⟨top, rest, hstack, rfl⟩ := exec_ret_cases h
    · exact .fault ⟨rfl, hstack⟩
    · exact .ret hstack
  case call nnn =>
    obtain ⟨hfull, rfl⟩ | ⟨hroom, rfl⟩ := exec_call_cases h
    · exact .fault ⟨rfl, hfull⟩
    · exact .call nnn hroom
  case drw a b n =>
    obtain ⟨-, rfl⟩ | ⟨k, -, hbad, -, rfl⟩ := exec_drw_cases h
    · exact .drw a b n _ _
    · exact .fault ⟨rfl, hbad⟩
  case seImm | sneImm | seReg | sneReg =>
    simp only [exec_seImm, exec_sneImm, exec_seReg, exec_sneReg] at h
    cases h
    exact .skip (ite_eq_or_eq _ _ _)
  all_goals cases h
  case jp nnn => exact .jump (Nat.le_trans (addr16_le nnn) (by decide))
  case jpV0 nnn => exact .jump (jpV0_target_le _ nnn)
  case cls => exact .cls
  case ldI nnn => exact .ldI nnn
  case rnd a kk => exact .rnd a kk _
  case addReg | subReg | shr | subn | shl => exact .resultFlag _ _ _
  case ldImm | addImm | ldReg | orReg | andReg | xorReg => exact .result _ _

/-- Settles O42: each effect names the one field it writes beside the registers, `pc` and the latch. -/
theorem onlyTheNamedInstructionsChangeEachField : Obligations.OnlyTheNamedInstructionsChangeEachField := by
  intro i s t h
  cases exec_effect h
  case ret =>
    exact ⟨.inl rfl, .inr (.inl rfl), .inl rfl, .inl rfl, rfl, rfl, rfl, fun _ => rfl⟩
  case call nnn _ =>
    exact ⟨.inl rfl, .inr (.inr ⟨nnn, rfl⟩), .inl rfl, .inl rfl, rfl, rfl, rfl, fun _ => rfl⟩
  case ldI nnn =>
    exact ⟨.inr ⟨nnn, rfl⟩, .inl rfl, .inl rfl, .inl rfl, rfl, rfl, rfl, fun _ => rfl⟩
  case rnd a kk _ =>
    exact ⟨.inl rfl, .inl rfl, .inl rfl, .inr ⟨a, kk, rfl⟩, rfl, rfl, rfl, fun _ => rfl⟩
  case cls =>
    exact ⟨.inl rfl, .inl rfl, .inr (.inl rfl), .inl rfl, rfl, rfl, rfl, fun _ => rfl⟩
  case drw a b n _ _ =>
    exact ⟨.inl rfl, .inl rfl, .inr (.inr ⟨a, b, n, rfl⟩), .inl rfl, rfl, rfl, rfl, fun _ => rfl⟩
  all_goals exact ⟨.inl rfl, .inl rfl, .inl rfl, .inl rfl, rfl, rfl, rfl, fun _ => rfl⟩

theorem flagByte_eq_zero_or_one (f : Bool) : flagByte f = 0x00#8 ∨ flagByte f = 0x01#8 := by
  cases f
  · exact .inl rfl
  · exact .inr rfl

theorem vf_of_exec_resultFlag {i : Instr} {s t : State} {a : Reg} {v : Byte} {f : Bool}
    (h : exec i s = .next (s.advance.setResultFlag a v f)) (ht : exec i s = .next t) :
    t.reg VF = 0x00#8 ∨ t.reg VF = 0x01#8 := by
  obtain rfl := Host.Outcome.next.inj (h.symm.trans ht)
  rw [State.setResultFlag_vf]
  exact flagByte_eq_zero_or_one f

/-- Settles O43: each of the six writes a flag byte to `VF` last, or takes a fault. -/
theorem flagSettersLeaveZeroOrOne : Obligations.FlagSettersLeaveZeroOrOne := by
  rintro i s t ⟨a, b, n, rfl | rfl | rfl | rfl | rfl | rfl⟩ - h ht
  · exact vf_of_exec_resultFlag (exec_addReg a b s) h
  · exact vf_of_exec_resultFlag (exec_subReg a b s) h
  · exact vf_of_exec_resultFlag (exec_shr a b s) h
  · exact vf_of_exec_resultFlag (exec_subn a b s) h
  · exact vf_of_exec_resultFlag (exec_shl a b s) h
  · obtain ⟨-, rfl⟩ | ⟨k, -, -, -, rfl⟩ := exec_drw_cases h
    · rw [State.reg_setReg_same]
      exact flagByte_eq_zero_or_one _
    · simp at ht

end Sys2Proof.Machine
end

section
/-! The invariant (State.Inv): every effect of an instruction, every fault of the fetch and the decoder, and every
transaction of the host keeps it. -/

namespace Sys2Proof.Machine

theorem State.faultTruthful_of_none {s : State} (h : s.fault = none) : s.faultTruthful := by
  rw [State.faultTruthful, h]
  trivial

/-- The invariant is one of memory, `I`, `pc`, the stack, the parameter and the latch. -/
theorem State.Inv.congr {s t : State} (h : s.Inv) (hmem : t.mem = s.mem) (hi : t.i = s.i) (hpc : t.pc = s.pc)
    (hstack : t.stack = s.stack) (hconfig : t.config = s.config) (hlatch : t.faultTruthful) : t.Inv where
  memWf := hmem ▸ h.memWf
  indexBound := hi ▸ h.indexBound
  pcBound := hpc ▸ h.pcBound
  stackBound := hstack ▸ h.stackBound
  stackLimit := hconfig ▸ hstack ▸ h.stackLimit
  latch := hlatch

theorem State.Inv.raise {s : State} (h : s.Inv) {f : Fault} (hf : (s.raise f).faultTruthful) : (s.raise f).Inv :=
  h.congr rfl rfl rfl rfl rfl hf

theorem State.Inv.setPc {s : State} (h : s.Inv) (hfault : s.fault = none) {p : Word} (hp : p.toNat ≤ 0x10FE) :
    (s.setPc p).Inv where
  memWf := h.memWf
  indexBound := h.indexBound
  pcBound := hp
  stackBound := h.stackBound
  stackLimit := h.stackLimit
  latch := State.faultTruthful_of_none hfault

/-- The address of an instruction that could be fetched leaves room for the advance and a skip: nothing wraps. -/
theorem pc_add_le {s : State} (hpc : s.pc.toNat + 1 < memSize) :
    (s.pc + 2#16).toNat ≤ 0x1000 ∧ (s.pc + 4#16).toNat ≤ 0x10FE := by
  simp only [memSize] at hpc
  constructor <;> rw [BitVec.toNat_add] <;> simp only [BitVec.toNat_ofNat] <;> omega

theorem State.Inv.advance {s : State} (h : s.Inv) (hfault : s.fault = none) (hpc : s.pc.toNat + 1 < memSize) :
    s.advance.Inv :=
  h.setPc hfault (Nat.le_trans (pc_add_le hpc).1 (by decide))

theorem State.Inv.setStack {s : State} (h : s.Inv) (hfault : s.fault = none) {rest : List Word}
    (hbound : ∀ r ∈ rest, r.toNat ≤ 0x1000)
    (hlimit : ∀ limit, s.config.stackLimit = some limit → rest.length ≤ limit) : (s.setStack rest).Inv where
  memWf := h.memWf
  indexBound := h.indexBound
  pcBound := h.pcBound
  stackBound := hbound
  stackLimit := hlimit
  latch := State.faultTruthful_of_none hfault

/-- A pop leaves a shorter stack, and its top is an address to return to. -/
theorem State.Inv.pop {s : State} (h : s.Inv) (hfault : s.fault = none) {top : Word} {rest : List Word}
    (hstack : s.stack = top :: rest) : ((s.setStack rest).setPc top).Inv := by
  have hbound := hstack ▸ h.stackBound
  have hrest : (s.setStack rest).Inv := by
    refine h.setStack hfault (fun r hr => hbound r (List.mem_cons_of_mem top hr)) fun limit hlimit => ?_
    have := h.stackLimit limit hlimit
    rw [hstack, List.length_cons] at this
    omega
  exact hrest.setPc hfault (Nat.le_trans (hbound top List.mem_cons_self) (by decide))

/-- A push of a return address onto a stack with room. -/
theorem State.Inv.push {s : State} (h : s.Inv) (hfault : s.fault = none)
    (hroom : s.config.stackLimit ≠ some s.stack.length) {v : Word} (hv : v.toNat ≤ 0x1000) : (s.push v).Inv := by
  refine h.setStack hfault (fun r hr => ?_) fun limit hlimit => ?_
  · obtain rfl | hr := List.mem_cons.1 hr
    · exact hv
    · exact h.stackBound r hr
  · have hne : limit ≠ s.stack.length := fun e => hroom (e ▸ hlimit)
    have := h.stackLimit limit hlimit
    rw [List.length_cons]
    omega

theorem Effect.inv {s t : State} {i : Instr} (h : Effect s i t) (hs : s.Inv) (hfault : s.fault = none)
    (hpc : s.pc.toNat + 1 < memSize) : t.Inv := by
  have hnext := hs.advance hfault hpc
  have hlatch := State.faultTruthful_of_none hfault
  cases h with
  | fault hf => exact hs.raise hf
  | jump hp => exact hs.setPc hfault hp
  | skip hp =>
    obtain rfl | rfl := hp
    · exact hs.setPc hfault (pc_add_le hpc).2
    · exact hnext
  | ret hstack => exact hs.pop hfault hstack
  | call nnn hroom =>
    exact (hs.push hfault hroom (pc_add_le hpc).1).setPc hfault (Nat.le_trans (addr16_le nnn) (by decide))
  | ldI nnn => exact ⟨hnext.memWf, addr16_le nnn, hnext.pcBound, hnext.stackBound, hnext.stackLimit, hnext.latch⟩
  | result | resultFlag | rnd | cls | drw => exact hnext.congr rfl rfl rfl rfl rfl hnext.latch

/-- Every step keeps the invariant. -/
theorem State.Inv.step {s t : State} (hs : s.Inv) (h : step s = .next t) : t.Inv := by
  obtain ⟨hfault, ⟨f, hfetch, rfl⟩ | ⟨w, -, hdecode, rfl⟩ | ⟨w, i, hfetch, -, hexec⟩⟩ := step_cases h
  · refine hs.raise ?_
    obtain ⟨hpc, he⟩ | ⟨hpc, he⟩ | ⟨-, he⟩ := s.fetch_cases <;> rw [he] at hfetch <;> cases hfetch
    · exact ⟨rfl, hpc⟩
    · exact ⟨rfl, hpc.ge⟩
  · exact hs.raise ⟨rfl, hdecode⟩
  · exact (exec_effect hexec).inv hs hfault (State.fetch_ok_bound hfetch)

/-- Settles O3: by the effects of the instructions and the faults of the fetch and the decoder. -/
theorem stepKeepsTheInvariant : Obligations.StepKeepsTheInvariant := fun _ _ => State.Inv.step

/-! ## The host's transactions -/

theorem State.Inv.rst (s : State) : s.rst.Inv where
  memWf := ⟨List.Pairwise.nil, fun _ h => absurd h List.not_mem_nil⟩
  indexBound := Nat.zero_le _
  pcBound := show (0x0200#16 : Word).toNat ≤ 0x10FE by decide
  stackBound := fun _ h => absurd h List.not_mem_nil
  stackLimit := fun limit _ => Nat.zero_le limit
  latch := State.faultTruthful_of_none rfl

/-- Settles O2: the reset state is what a reset makes of itself. -/
theorem resetMeetsTheInvariant : Obligations.ResetMeetsTheInvariant := State.Inv.rst State.reset

theorem State.Inv.load {s : State} (h : s.Inv) (org : Nat) (img : List Byte) : (s.load org img).Inv := by
  by_cases hfit : org + img.length ≤ memSize
  · rw [s.load_of_fits hfit]
    exact ⟨Memory.wf_writeRun h.memWf hfit, h.indexBound, h.pcBound, h.stackBound, h.stackLimit, h.latch⟩
  · rwa [s.load_of_not_fits (Nat.lt_of_not_le hfit)]

theorem State.Inv.afterStep {s : State} (h : s.Inv) : s.afterStep.Inv := by
  rw [State.afterStep]
  split
  · exact h.step ‹_›
  all_goals exact h

theorem State.Inv.after {s : State} (h : s.Inv) (tr : Transaction) : (s.after tr).Inv := by
  cases tr
  case rst => exact .rst s
  case load org img => exact h.load org img
  case stepReq => exact h.afterStep
  all_goals exact h.congr rfl rfl rfl rfl rfl h.latch

/-- Settles O4: by induction on the transactions. -/
theorem transactionsKeepTheInvariant : Obligations.TransactionsKeepTheInvariant := by
  intro s ts hs
  induction ts generalizing s with
  | nil => exact hs
  | cons tr ts ih => exact ih _ (hs.after tr)

end Sys2Proof.Machine
end

section
/-! What a step does not observe: the timers (10_state.md R27), the random port but for the one byte of RND (R143), and
the registers outside an instruction's read list (R22). -/

namespace Sys2Proof.Machine

/-- Only a latched fault makes a step answer a fault. -/
theorem latched_of_step_fault {s : State} {f : Fault} (h : step s = .fault f) : s.fault = some f := by
  obtain ⟨t, ht⟩ | ⟨g, hg, hstep⟩ := everyInstructionAndStepAnswers.2 s
  · cases ht.symm.trans h
  · rw [hg, Host.Outcome.fault.inj (hstep.symm.trans h)]

/-! ## The timers -/

/-- An instruction does the same whatever the timers hold, and leaves them (R207). -/
theorem exec_withTimers {i : Instr} {s t : State} (h : exec i s = .next t) (d e : Byte) :
    exec i (s.withTimers d e) = .next (t.withTimers d e) := by
  cases i
  case ret =>
    obtain ⟨hstack, rfl⟩ | ⟨top, rest, hstack, rfl⟩ := exec_ret_cases h
    · exact exec_ret_nil hstack
    · exact exec_ret_cons hstack
  case call nnn =>
    obtain ⟨hfull, rfl⟩ | ⟨hroom, rfl⟩ := exec_call_cases h
    · exact exec_call_full nnn hfull
    · exact exec_call_room nnn hroom
  case drw a b n =>
    obtain ⟨hrange, rfl⟩ | ⟨k, hk, hbad, hfirst, rfl⟩ := exec_drw_cases h
    · exact exec_drw (s := s.withTimers d e) hrange a b
    · exact exec_drw_outOfRange a b hk hbad hfirst
  case seImm | sneImm | seReg | sneReg =>
    simp only [exec_seImm, exec_sneImm, exec_seReg, exec_sneReg] at h ⊢
    cases h
    rfl
  all_goals
    cases h
    rfl

/-- Settles O44: each branch of the step reads the latch, `pc` and memory, and then runs an instruction. -/
theorem stepsDoNotObserveTheTimers : Obligations.StepsDoNotObserveTheTimers := by
  refine fun s d e => ⟨fun t h => ?_, fun f h => ?_⟩
  · obtain ⟨hlatch, ⟨f, hfetch, rfl⟩ | ⟨w, hfetch, hdecode, rfl⟩ | ⟨w, i, hfetch, hdecode, hexec⟩⟩ := step_cases h
    · exact step_fetchError (s := s.withTimers d e) hlatch hfetch
    · exact step_invalid (s := s.withTimers d e) hlatch hfetch hdecode
    · rw [step_decoded (s := s.withTimers d e) hlatch hfetch hdecode]
      exact exec_withTimers hexec d e
  · have hlatch := latched_of_step_fault h
    exact step_latched (s := s.withTimers d e) hlatch

/-! ## The random port -/

/-- Two states with the same core and the same parameter differ in the random port alone. -/
theorem State.eq_withRand {s t : State} (hcore : s.toCoreState = t.toCoreState) (hconfig : s.config = t.config) :
    t = { s with rand := t.rand } := by
  obtain ⟨_, _, _⟩ := s
  obtain rfl := hcore
  obtain rfl := hconfig
  rfl

/-- With the same next random byte, an instruction does the same to the core (R143). -/
theorem exec_core_withRand {i : Instr} {s s' : State} (h : exec i s = .next s') {r : RandPort}
    (hrand : s.randIn = State.randIn { s with rand := r }) :
    ∃ t', exec i { s with rand := r } = .next t' ∧ t'.toCoreState = s'.toCoreState ∧ t'.config = s'.config := by
  by_cases hi : ∃ a kk, i = .rnd a kk
  · obtain ⟨a, kk, rfl⟩ := hi
    rw [exec_rnd, hrand] at h
    cases h
    exact ⟨_, exec_rnd a kk _, rfl, rfl⟩
  · exact ⟨_, exec_withRand (fun a kk e => hi ⟨a, kk, e⟩) h r, rfl, rfl⟩

/-- Settles O54: each branch of the step but RND is the same for every random port, and RND takes the one byte. -/
theorem nothingButTheCoreStatePersists : Obligations.NothingButTheCoreStatePersists := by
  intro s t hcore hconfig hrand
  obtain ⟨r, rfl⟩ : ∃ r, t = { s with rand := r } := ⟨_, State.eq_withRand hcore hconfig⟩
  refine ⟨fun s' h => ⟨step_config h, ?_⟩, fun f h => ?_⟩
  · obtain ⟨hlatch, ⟨f, hfetch, rfl⟩ | ⟨w, hfetch, hdecode, rfl⟩ | ⟨w, i, hfetch, hdecode, hexec⟩⟩ := step_cases h
    · exact ⟨_, step_fetchError (s := { s with rand := r }) hlatch hfetch, rfl, rfl⟩
    · exact ⟨_, step_invalid (s := { s with rand := r }) hlatch hfetch hdecode, rfl, rfl⟩
    · rw [step_decoded (s := { s with rand := r }) hlatch hfetch hdecode]
      exact exec_core_withRand hexec hrand
  · have hlatch := latched_of_step_fault h
    exact step_latched (s := { s with rand := r }) hlatch

/-! ## The registers an instruction writes -/

/-- An instruction changes no register outside its write list (R22). -/
theorem exec_sameRegsBut {i : Instr} {s t : State} (h : exec i s = .next t) : SameRegsBut (writesRegs i) s t := by
  cases i
  case ret =>
    obtain ⟨-, rfl⟩ | ⟨top, rest, -, rfl⟩ := exec_ret_cases h <;> exact fun _ _ => rfl
  case call nnn =>
    obtain ⟨-, rfl⟩ | ⟨-, rfl⟩ := exec_call_cases h <;> exact fun _ _ => rfl
  case drw a b n =>
    obtain ⟨-, rfl⟩ | ⟨k, -, -, -, rfl⟩ := exec_drw_cases h
    · exact fun _ hr => State.reg_setReg_ne _ (List.ne_of_not_mem_cons hr) _
    · exact fun _ _ => rfl
  case seImm | sneImm | seReg | sneReg =>
    simp only [exec_seImm, exec_sneImm, exec_seReg, exec_sneReg] at h
    cases h
    exact fun _ _ => rfl
  all_goals cases h
  case cls | jp | ldI | jpV0 => exact fun _ _ => rfl
  case addReg | subReg | shr | subn | shl => exact sameRegsBut_advance_setResultFlag s _ _ _
  case rnd a kk => exact fun _ hr => State.reg_setReg_ne _ (List.ne_of_not_mem_cons hr) _
  case ldImm | addImm | ldReg | orReg | andReg | xorReg => exact sameRegsBut_advance_setReg s _ _

/-! ## The registers an instruction does not read -/

/-- How `exec i` of `s`, which answers `t`, bears the value `v` put into register `r` before it: the register keeps `v`,
unless the instruction overwrites it, which it does when it completes and has it in its write list. -/
def KeepsOrOverwrites (i : Instr) (s t : State) (r : Reg) (v : Byte) : Prop :=
  (exec i (s.setReg r v) = .next (t.setReg r v) ∧ (r ∈ writesRegs i → t.fault ≠ none)) ∨
  (exec i (s.setReg r v) = .next t ∧ r ∈ writesRegs i)

theorem keeps_of_noWrites {i : Instr} {s t : State} {r : Reg} {v : Byte} (hw : writesRegs i = [])
    (h : exec i (s.setReg r v) = .next (t.setReg r v)) : KeepsOrOverwrites i s t r v :=
  .inl ⟨h, fun hr => absurd (hw ▸ hr) List.not_mem_nil⟩

/-- An instruction whose last write is of register `a`, after writes `u` of other fields. -/
theorem keepsOrOverwrites_of_setReg {i : Instr} {s t u : State} {r a : Reg} {v w : Byte} (hw : writesRegs i = [a])
    (ht : exec i s = .next t) (h : exec i s = .next (u.setReg a w))
    (h' : exec i (s.setReg r v) = .next ((u.setReg r v).setReg a w)) : KeepsOrOverwrites i s t r v := by
  obtain rfl := Host.Outcome.next.inj (h.symm.trans ht)
  rw [KeepsOrOverwrites, h', hw, List.mem_singleton]
  by_cases hr : r = a
  · subst hr
    exact .inr ⟨by rw [State.setReg_setReg], rfl⟩
  · exact .inl ⟨by rw [State.setReg_comm _ hr], fun e => absurd e hr⟩

/-- An instruction that writes a result to register `a` and its flag to `VF`. -/
theorem keepsOrOverwrites_of_setResultFlag {i : Instr} {s t u : State} {r a : Reg} {v w : Byte} {f : Bool}
    (hw : writesRegs i = [a, VF]) (ht : exec i s = .next t) (h : exec i s = .next (u.setResultFlag a w f))
    (h' : exec i (s.setReg r v) = .next ((u.setReg r v).setResultFlag a w f)) : KeepsOrOverwrites i s t r v := by
  obtain rfl := Host.Outcome.next.inj (h.symm.trans ht)
  simp only [KeepsOrOverwrites, h', hw, List.mem_cons, List.not_mem_nil, or_false, State.setResultFlag]
  by_cases hr : r = a
  · subst hr
    exact .inr ⟨by rw [State.setReg_setReg], .inl rfl⟩
  · rw [State.setReg_comm _ hr]
    by_cases hf : r = VF
    · subst hf
      exact .inr ⟨by rw [State.setReg_setReg], .inr rfl⟩
    · exact .inl ⟨by rw [State.setReg_comm _ hf], fun e => absurd e (not_or.2 ⟨hr, hf⟩)⟩

theorem exec_setReg_unread {i : Instr} {s t : State} (h : exec i s = .next t) {r : Reg} (hr : r ∉ readsRegs i)
    (v : Byte) : KeepsOrOverwrites i s t r v := by
  have hread : ∀ q ∈ readsRegs i, (s.setReg r v).reg q = s.reg q := fun q hq =>
    State.reg_setReg_ne s (fun e : q = r => hr (e ▸ hq)) v
  cases i <;>
    simp only [readsRegs, List.forall_mem_cons, List.not_mem_nil, false_imp_iff, implies_true, and_true] at hread
  case ret =>
    refine keeps_of_noWrites rfl ?_
    obtain ⟨hstack, rfl⟩ | ⟨top, rest, hstack, rfl⟩ := exec_ret_cases h
    · exact exec_ret_nil hstack
    · exact exec_ret_cons hstack
  case call nnn =>
    refine keeps_of_noWrites rfl ?_
    obtain ⟨hfull, rfl⟩ | ⟨hroom, rfl⟩ := exec_call_cases h
    · exact exec_call_full nnn hfull
    · exact exec_call_room nnn hroom
  case drw a b n =>
    obtain ⟨hrange, -⟩ | ⟨k, hk, hbad, hfirst, rfl⟩ := exec_drw_cases h
    · have hdrawn : (s.setReg r v).drawn a b n = s.drawn a b n := by simp [State.drawn, hread]
      exact keepsOrOverwrites_of_setReg rfl h (exec_drw hrange a b)
        ((exec_drw (s := s.setReg r v) hrange a b).trans (by rw [hdrawn]; rfl))
    · exact .inl ⟨exec_drw_outOfRange a b hk hbad hfirst, fun _ => Option.some_ne_none _⟩
  case cls | jp | ldI =>
    cases h
    exact keeps_of_noWrites rfl rfl
  case jpV0 | seImm | sneImm | seReg | sneReg =>
    simp only [exec_jpV0, exec_seImm, exec_sneImm, exec_seReg, exec_sneReg] at h
    cases h
    refine keeps_of_noWrites rfl ?_
    simp only [exec_jpV0, exec_seImm, exec_sneImm, exec_seReg, exec_sneReg, hread]
    rfl
  case ldImm | rnd => exact keepsOrOverwrites_of_setReg rfl h rfl rfl
  case addImm | ldReg | orReg | andReg | xorReg =>
    refine keepsOrOverwrites_of_setReg rfl h rfl ?_
    simp only [exec_addImm, exec_ldReg, exec_orReg, exec_andReg, exec_xorReg, hread]
    rfl
  case addReg | subReg | subn | shr | shl =>
    refine keepsOrOverwrites_of_setResultFlag rfl h rfl ?_
    simp only [exec_addReg, exec_subReg, exec_subn, exec_shr, exec_shl, hread]
    rfl

theorem sameButRegsPc_refl (s : State) : SameButRegsPc s s :=
  ⟨rfl, rfl, rfl, rfl, rfl, rfl, rfl, rfl, fun _ => rfl⟩

theorem sameButRegsPc_setReg (s : State) (r : Reg) (v : Byte) : SameButRegsPc s (s.setReg r v) :=
  ⟨rfl, rfl, rfl, rfl, rfl, rfl, rfl, rfl, fun _ => rfl⟩

/-- Settles O41: the changed register keeps its value, and nothing else changes, or it is overwritten. -/
theorem instructionsReadAndWriteOnlyTheirRegisters : Obligations.InstructionsReadAndWriteOnlyTheirRegisters := by
  refine fun i s t h => ⟨exec_sameRegsBut h, fun r v hr => ?_⟩
  obtain ⟨hkept, hfault⟩ | ⟨hover, hw⟩ := exec_setReg_unread h hr v
  · exact ⟨_, hkept, fun q hq => State.reg_setReg_ne t hq v, fun _ => State.reg_setReg_same t r v,
      fun hw hnone => absurd hnone (hfault hw), rfl, sameButRegsPc_setReg t r v⟩
  · exact ⟨t, hover, fun _ _ => rfl, fun hunwritten => absurd hw hunwritten, fun _ _ => rfl, rfl, sameButRegsPc_refl t⟩

end Sys2Proof.Machine
end

section
/-! The assembler (30_encoding.md R80): a line assembles when its operands have a listed shape and lie in range, the
line of an instruction assembles to it, and so does its printed text. -/

namespace Sys2Proof.Machine

/-! ## Operands in range -/

theorem regOperand_isSome (r : Nat) : (regOperand r).isSome = regOk r := by
  cases h : regOk r <;> simp [regOperand, h]

theorem kkOperand_isSome (v : Nat) : (kkOperand v).isSome = kkOk v := by
  cases h : kkOk v <;> simp [kkOperand, h]

theorem nnnOperand_isSome (v : Nat) : (nnnOperand v).isSome = nnnOk v := by
  cases h : nnnOk v <;> simp [nnnOperand, h]

theorem heightOperand_isSome (v : Nat) : (heightOperand v).isSome = heightOk v := by
  cases h : heightOk v <;> simp [heightOperand, h]

theorem asmRegImm_isSome (f : Reg → Byte → Instr) (r v : Nat) :
    (asmRegImm f r v).isSome = (regOk r && kkOk v) := by
  rw [asmRegImm, ← regOperand_isSome, ← kkOperand_isSome]
  cases regOperand r <;> cases kkOperand v <;> rfl

theorem asmRegReg_isSome (f : Reg → Reg → Instr) (r q : Nat) :
    (asmRegReg f r q).isSome = (regOk r && regOk q) := by
  rw [asmRegReg, ← regOperand_isSome, ← regOperand_isSome]
  cases regOperand r <;> cases regOperand q <;> rfl

theorem instrOfLine_isSome (l : AsmInstr) : (instrOfLine l).isSome = l.wellFormed := by
  obtain ⟨op, args⟩ := l
  simp only [instrOfLine, AsmInstr.wellFormed]
  split <;> simp only [Option.isSome_map, Option.isSome_some, Option.isSome_none, nnnOperand_isSome, asmRegImm_isSome,
    asmRegReg_isSome, regOperand_isSome]
  case h_4 r v => by_cases hr : r = 0 <;> simp [hr, nnnOperand_isSome]
  case h_25 r q v =>
    rw [← regOperand_isSome, ← regOperand_isSome, ← heightOperand_isSome]
    cases regOperand r <;> cases regOperand q <;> cases heightOperand v <;> rfl

/-! ## The line of an instruction -/

@[simp] theorem regOperand_toNat (a : Reg) : regOperand a.toNat = some a := by
  simp [regOperand, regOk, Laws.OperandsInRange.nibble_le a]

@[simp] theorem kkOperand_toNat (kk : Byte) : kkOperand kk.toNat = some kk := by
  simp [kkOperand, kkOk, Laws.OperandsInRange.byte_le kk]

@[simp] theorem nnnOperand_toNat (nnn : Addr12) : nnnOperand nnn.toNat = some nnn := by
  simp [nnnOperand, nnnOk, Laws.OperandsInRange.addr_le nnn]

@[simp] theorem heightOperand_toNat (n : Nibble) : heightOperand n.toNat = some n := by
  simp [heightOperand, heightOk, Laws.OperandsInRange.nibble_le n]

theorem instrOfLine_lineOfInstr (i : Instr) : instrOfLine (lineOfInstr i) = some (assembled i) := by
  cases i <;> simp [lineOfInstr, instrOfLine, asmRegImm, asmRegReg, assembled]

/-! ## The printed text -/

/-- The operands a disassembler prints, one by one. -/
inductive Printed : List (List Char) → List AsmOperand → Prop
  | nil : Printed [] []
  | cons {p : List Char} {v : AsmOperand} {ps : List (List Char)} {vs : List AsmOperand} (hclean : CleanPiece p)
      (hparse : parseOperand p = some (.val v)) (h : Printed ps vs) : Printed (p :: ps) (v :: vs)

theorem Printed.clean {ps : List (List Char)} {vs : List AsmOperand} (h : Printed ps vs) : ∀ q ∈ ps, CleanPiece q := by
  induction h with
  | nil => exact fun _ hq => absurd hq List.not_mem_nil
  | cons hclean _ _ ih => exact List.forall_mem_cons.2 ⟨hclean, ih⟩

theorem Printed.parse {ps : List (List Char)} {vs : List AsmOperand} (h : Printed ps vs) :
    ps.mapM parseOperand = some (vs.map .val) := by
  induction h with
  | nil => rfl
  | cons _ hparse _ ih => simp [List.mapM_cons, hparse, ih]

theorem Printed.reg (a : Reg) {ps : List (List Char)} {vs : List AsmOperand} (h : Printed ps vs) :
    Printed (regText a :: ps) (.reg a.toNat :: vs) :=
  .cons (regText_clean a) (parseOperand_regText a) h

theorem Printed.index {ps : List (List Char)} {vs : List AsmOperand} (h : Printed ps vs) :
    Printed (['I'] :: ps) (.index :: vs) :=
  .cons index_clean parseOperand_index h

theorem Printed.num {width v : Nat} (hv : v < 16 ^ (width + 1)) : Printed [hexText (width + 1) v] [.num v] :=
  .cons (hexText_clean _ v) (parseOperand_hexText hv) .nil

/-- The text of an instruction is its line, printed. -/
theorem instrText_eq (i : Instr) :
    ∃ ps, instrText i = lineText (lineOfInstr i).op ps ∧ Printed ps (lineOfInstr i).args := by
  cases i
  case cls | ret => exact ⟨_, rfl, .nil⟩
  case jp nnn | call nnn => exact ⟨_, rfl, .num nnn.isLt⟩
  case jpV0 nnn => exact ⟨_, rfl, .reg 0x0#4 (.num nnn.isLt)⟩
  case ldI nnn => exact ⟨_, rfl, .index (.num nnn.isLt)⟩
  case seImm a kk | sneImm a kk | ldImm a kk | addImm a kk | rnd a kk => exact ⟨_, rfl, .reg a (.num kk.isLt)⟩
  case drw a b n => exact ⟨_, rfl, .reg a (.reg b (.num n.isLt))⟩
  case seReg a b n | sneReg a b n => exact ⟨_, rfl, .reg a (.reg b .nil)⟩
  all_goals exact ⟨_, rfl, .reg _ (.reg _ .nil)⟩

/-- What a disassembler prints assembles back, at any origin (R80). -/
theorem assemble_instrText (org : Nat) (i : Instr) : assemble org (instrText i) = some (encode (assembled i)) := by
  obtain ⟨ps, htext, hps⟩ := instrText_eq i
  rw [htext]
  exact assemble_lineText org hps.clean hps.parse (instrOfLine_lineOfInstr i)

/-- Settles O53: the shapes and ranges line by line, and the printed text through the parser. -/
theorem assemblyAgreesWithDisassembly : Obligations.AssemblyAgreesWithDisassembly :=
  ⟨instrOfLine_isSome, instrOfLine_lineOfInstr, assemble_instrText,
    fun org _ i h => ⟨instrText i, congrArg (Option.map instrText) h, assemble_instrText org i⟩⟩

end Sys2Proof.Machine
end
